-- ==== Sys2Proof/Word.lean ====
section
/-! DEFINITION. The widths of the hardware (10_state.md R20, R25, R29; 30_encoding.md R91 to R93)
and the nibble tuple with the operand helper that the decoder hands to every opcode. -/

namespace Sys2Proof

/-- A RAM byte or a general register: 8 bits, unsigned (00_scope.md R11). -/
abbrev Byte := BitVec 8

/-- An instruction word, `pc`, `I`, a return address: 16 bits (00_scope.md R7). -/
abbrev Word := BitVec 16

/-- The literal `nnn` of a word: 12 bits (30_encoding.md R92). -/
abbrev Addr12 := BitVec 12

/-- One nibble of a word (00_scope.md R10). -/
abbrev Nibble := BitVec 4

/-- A general register's number, 0 to 15 (10_state.md R20, R22). -/
abbrev Reg := Fin 16

/-- A keypad code, 0x0 to 0xF (45_keypad.md R200). -/
abbrev KeyCode := BitVec 4

/-- `VF`, the register that doubles as the flag (10_state.md R23). -/
abbrev vF : Reg := 15

/-- The decoder's output: the nibble tuple `(op, x, y, n)` and the derived fields `nnn`, `nn`
(30_encoding.md R91). -/
structure Fields where
  op  : Nibble
  x   : Nibble
  y   : Nibble
  n   : Nibble
  nnn : Addr12
  nn  : Byte
  deriving DecidableEq, Repr

end Sys2Proof
end

