-- ==== Sys2Proof/Config.lean ====
section
/-! DEFINITION. What an implementation fixes: the constants of 00_scope.md R7, the parameters of
00_scope.md R8, the font table, the moves of the agents, and the free values. -/

namespace Sys2Proof

/-- The parameters the host sets (00_scope.md R8; 10_state.md R39). They stand in State, so a claim
about every state is a claim about every configuration.
`cycleDelay` has no effect on any rule (92_eei_decisions.md D30). -/
structure Configuration where
  stackCapacity : Nat
  timeScale     : Nat
  cycleDelay    : Nat
  debugMode     : Bool
  deriving DecidableEq, Repr

/-- The stated ranges: `TIME_SCALE` and `STACK_CAPACITY` at least 1 (70_reset_and_hazards.md R304).
Outside them the model refuses (93_implementation_defined.md U17), log 14. -/
abbrev Configuration.valid (c : Configuration) : Prop := 1 ≤ c.stackCapacity ∧ 1 ≤ c.timeScale

namespace Machine

/-- The two kinds of reset (10_state.md R52). -/
inductive ResetKind where
  | cold
  | reload
  deriving DecidableEq, Repr

/-- One move of one of the four agents (00_scope.md R9). -/
inductive Move where
  /-- the engine takes a step, if it has one -/
  | engine
  /-- the wall clock: `ms` milliseconds pass (46_timers.md R221) -/
  | clock (ms : Nat)
  /-- the input source appends a key press (45_keypad.md R201) -/
  | key (c : KeyCode)
  /-- the input source delivers the interrupt event (45_keypad.md R201; 60_exceptions.md R271) -/
  | interrupt
  /-- the host's halt request (60_exceptions.md R272) -/
  | haltRequest
  /-- the host resets with a ROM (10_state.md R52; 70_reset_and_hazards.md R300, R302) -/
  | reset (kind : ResetKind) (rom : List Byte)
  /-- the host sets the configuration (10_state.md R57) -/
  | configure (c : Configuration)
  deriving DecidableEq, Repr, Inhabited

end Machine

namespace Config

/-- `RAM_SIZE` (00_scope.md R7). -/
abbrev ramSize : Nat := 4096

/-- `PROGRAM_BASE` (00_scope.md R7). -/
abbrev programBase : Nat := 0x200

/-- `ROM_MAX` = `RAM_SIZE` - `PROGRAM_BASE` (00_scope.md R7). -/
abbrev romMax : Nat := 3584

/-- One past the last font byte: 16 glyphs of 5 bytes from 0x000 (20_memory.md R62). -/
abbrev fontEnd : Nat := 0x50

/-- `TICK_MS` (00_scope.md R7; 90_conflicts.md C6). -/
abbrev tickMs : Nat := 16

/-- `RND_VALUE`, the "random" byte (00_scope.md R7; 42_load_immediate.md R154). -/
abbrev rndValue : Byte := 0xFF

/-- The parameters of `State.reset`. 16 is R8's suggested `STACK_CAPACITY` (PRESUMED, G4), 1 is R8's
default `TIME_SCALE`; the other two are a DESIGN CHOICE. Log 3, unsafe for claims about
`State.reset` alone. -/
def default : Configuration :=
  { stackCapacity := 16, timeScale := 1, cycleDelay := 0, debugMode := false }

/-- `FONT`, the 80 bytes at RAM 0x000 to 0x04F, glyph `d` at `5 * d` (20_memory.md R62, R63).
PRESUMED: the byte values are general knowledge (G1, 92_eei_decisions.md D28), log 1, unsafe for a
claim that reads a glyph. -/
def font : List Byte :=
  [0xF0, 0x90, 0x90, 0x90, 0xF0,
   0x20, 0x60, 0x20, 0x20, 0x70,
   0xF0, 0x10, 0xF0, 0x80, 0xF0,
   0xF0, 0x10, 0xF0, 0x10, 0xF0] ++
  [0x90, 0x90, 0xF0, 0x10, 0x10,
   0xF0, 0x80, 0xF0, 0x10, 0xF0,
   0xF0, 0x80, 0xF0, 0x90, 0xF0,
   0xF0, 0x10, 0x20, 0x40, 0x40] ++
  [0xF0, 0x90, 0xF0, 0x90, 0xF0,
   0xF0, 0x90, 0xF0, 0x10, 0xF0,
   0xF0, 0x90, 0xF0, 0x90, 0x90,
   0xE0, 0x90, 0xE0, 0x90, 0xE0] ++
  [0xF0, 0x80, 0x80, 0x80, 0xF0,
   0xE0, 0x90, 0x90, 0x90, 0xE0,
   0xF0, 0x80, 0xF0, 0x80, 0xF0,
   0xF0, 0x80, 0xF0, 0x80, 0x80]

/-- The free value of RAM 0x200 to 0xFFF after `RomOversize` (60_exceptions.md R268;
93_implementation_defined.md U13). The first argument is `State.freeCtr`, the second the address. No
body: nothing can evaluate it. Log 9. -/
opaque unspecifiedRam : Nat → Nat → Byte

/-- The free choice where R208 enables both steps of a key wait: is the abort step the one taken? The
argument is `State.freeCtr`. No body. Log 7. -/
opaque abortFirst : Nat → Bool

/-- The free sequence of the agents' moves: presses, events and time may come "at any moment,
independently of the engine and in any number" (45_keypad.md R201; 46_timers.md R221). The argument is
the position in it, `Supply.free`. No body. Log 4. -/
opaque freeMove : Nat → Machine.Move

end Config
end Sys2Proof
end

