-- ==== Sys2Proof/Decode.lean ====
section
/-! DEFINITION. The decoder, total on any bytes and rejecting by name (30_encoding.md R90 to R96,
R100), and the encoder written from the same patterns. -/

namespace Sys2Proof

/-- Why bytes are no instruction: the five classes of illegal words of 30_encoding.md R100, and
fewer than the two bytes of a word (R90). -/
inductive DecodeError where
  /-- R100 (a): `5xyn` with `n` not 0 -/
  | family5
  /-- R100 (b): `9xyn` with `n` not 0 -/
  | family9
  /-- R100 (c): `8xyn` with `n` 8 to D or F -/
  | family8
  /-- R100 (d): `Exnn` with `nn` not 9E or A1 -/
  | familyE
  /-- R100 (e): `Fxnn` outside the nine patterns and not `FFFF` -/
  | familyF
  /-- fewer than two bytes -/
  | truncated
  deriving DecidableEq, Repr

/-- The nibble tuple and the operand helper of a word (30_encoding.md R91, R93; 00_scope.md R10). -/
def fields (w : Word) : Fields :=
  { op  := w.extractLsb' 12 4
    x   := w.extractLsb' 8 4
    y   := w.extractLsb' 4 4
    n   := w.extractLsb' 0 4
    nnn := w.extractLsb' 0 12
    nn  := w.extractLsb' 0 8 }

/-- A 4-bit field as a register number: always in range (10_state.md R22). -/
def regOf (b : Nibble) : Reg := b.toFin

/-- Family 0: the fixed words `00E0` and `00EE` win over `0nnn` (30_encoding.md R94). -/
def decodeFamily0 (f : Fields) : Instr :=
  if f.nnn = 0x0E0#12 then .cls else if f.nnn = 0x0EE#12 then .ret else .sys f.nnn

/-- Family 8, selected by the low nibble (30_encoding.md R95, R100 (c)). -/
def decodeFamily8 (f : Fields) : Except DecodeError Instr :=
  let x := regOf f.x
  let y := regOf f.y
  match f.n with
  | 0x0#4 => .ok (.ldVxVy x y)
  | 0x1#4 => .ok (.orVxVy x y)
  | 0x2#4 => .ok (.andVxVy x y)
  | 0x3#4 => .ok (.xorVxVy x y)
  | 0x4#4 => .ok (.addVxVy x y)
  | 0x5#4 => .ok (.subVxVy x y)
  | 0x6#4 => .ok (.shrVxVy x y)
  | 0x7#4 => .ok (.subnVxVy x y)
  | 0xE#4 => .ok (.shlVxVy x y)
  | _     => .error .family8

/-- Family E, selected by the low byte (30_encoding.md R95, R100 (d)). -/
def decodeFamilyE (f : Fields) : Except DecodeError Instr :=
  match f.nn with
  | 0x9E#8 => .ok (.skpVx (regOf f.x))
  | 0xA1#8 => .ok (.sknpVx (regOf f.x))
  | _      => .error .familyE

/-- Family F, selected by the low byte; the word `FFFF` alone is BRK (30_encoding.md R95, R100 (e)). -/
def decodeFamilyF (f : Fields) : Except DecodeError Instr :=
  let x := regOf f.x
  match f.nn with
  | 0x07#8 => .ok (.ldVxDt x)
  | 0x0A#8 => .ok (.ldVxK x)
  | 0x15#8 => .ok (.ldDtVx x)
  | 0x18#8 => .ok (.ldStVx x)
  | 0x1E#8 => .ok (.addIVx x)
  | 0x29#8 => .ok (.ldFVx x)
  | 0x33#8 => .ok (.ldBVx x)
  | 0x55#8 => .ok (.ldMemVx x)
  | 0x65#8 => .ok (.ldVxMem x)
  | 0xFF#8 => if f.x = 0xF#4 then .ok .brk else .error .familyF
  | _      => .error .familyF

/-- Dispatch on the nibble tuple (30_encoding.md R94, R95). -/
def decodeFields (f : Fields) : Except DecodeError Instr :=
  let x := regOf f.x
  let y := regOf f.y
  match f.op with
  | 0x0#4 => .ok (decodeFamily0 f)
  | 0x1#4 => .ok (.jp f.nnn)
  | 0x2#4 => .ok (.call f.nnn)
  | 0x3#4 => .ok (.seVxNn x f.nn)
  | 0x4#4 => .ok (.sneVxNn x f.nn)
  | 0x5#4 => if f.n = 0x0#4 then .ok (.seVxVy x y) else .error .family5
  | 0x6#4 => .ok (.ldVxNn x f.nn)
  | 0x7#4 => .ok (.addVxNn x f.nn)
  | 0x8#4 => decodeFamily8 f
  | 0x9#4 => if f.n = 0x0#4 then .ok (.sneVxVy x y) else .error .family9
  | 0xA#4 => .ok (.ldINnn f.nnn)
  | 0xB#4 => .ok (.jpV0Nnn f.nnn)
  | 0xC#4 => .ok (.rndVxNn x f.nn)
  | 0xD#4 => .ok (.drwVxVyN x y f.n)
  | 0xE#4 => decodeFamilyE f
  | _     => decodeFamilyF f

/-- The decoder on a word (30_encoding.md R94). -/
def decodeWord (w : Word) : Except DecodeError Instr := decodeFields (fields w)

/-- Two RAM bytes as a word, the lower address in the high half (20_memory.md R67, the spec's
decision D1, log 12). -/
def wordOfBytes (hi lo : Byte) : Word := hi ++ lo

/-- The two bytes of a word in RAM order (20_memory.md R67). -/
def bytesOfWord (w : Word) : List Byte := [w.extractLsb' 8 8, w.extractLsb' 0 8]

/-- The decoder on bytes: one instruction and the rest (30_encoding.md R90). -/
def decode : List Byte → Except DecodeError (Instr × List Byte)
  | hi :: lo :: rest =>
    match decodeWord (wordOfBytes hi lo) with
    | .ok i => .ok (i, rest)
    | .error e => .error e
  | [_] => .error .truncated
  | [] => .error .truncated

/-- A register number as a 4-bit field. -/
def nibbleOf (r : Reg) : Nibble := BitVec.ofFin r

/-- Format NNN (30_encoding.md R92). -/
def wordNNN (op : Nibble) (nnn : Addr12) : Word := op ++ nnn

/-- Format XNN (30_encoding.md R92). -/
def wordXNN (op : Nibble) (x : Reg) (nn : Byte) : Word := op ++ (nibbleOf x ++ nn)

/-- Formats XY and XYN (30_encoding.md R92). -/
def wordXYN (op : Nibble) (x y : Reg) (n : Nibble) : Word := op ++ (nibbleOf x ++ (nibbleOf y ++ n))

/-- The encoder: the word of a well-formed instruction (30_encoding.md R96; opcode_table.json). -/
def encode : Instr → Word
  | .cls => 0x00E0#16
  | .ret => 0x00EE#16
  | .sys nnn => wordNNN 0x0#4 nnn
  | .jp nnn => wordNNN 0x1#4 nnn
  | .call nnn => wordNNN 0x2#4 nnn
  | .seVxNn x nn => wordXNN 0x3#4 x nn
  | .sneVxNn x nn => wordXNN 0x4#4 x nn
  | .seVxVy x y => wordXYN 0x5#4 x y 0x0#4
  | .ldVxNn x nn => wordXNN 0x6#4 x nn
  | .addVxNn x nn => wordXNN 0x7#4 x nn
  | .ldVxVy x y => wordXYN 0x8#4 x y 0x0#4
  | .orVxVy x y => wordXYN 0x8#4 x y 0x1#4
  | .andVxVy x y => wordXYN 0x8#4 x y 0x2#4
  | .xorVxVy x y => wordXYN 0x8#4 x y 0x3#4
  | .addVxVy x y => wordXYN 0x8#4 x y 0x4#4
  | .subVxVy x y => wordXYN 0x8#4 x y 0x5#4
  | .shrVxVy x y => wordXYN 0x8#4 x y 0x6#4
  | .subnVxVy x y => wordXYN 0x8#4 x y 0x7#4
  | .shlVxVy x y => wordXYN 0x8#4 x y 0xE#4
  | .sneVxVy x y => wordXYN 0x9#4 x y 0x0#4
  | .ldINnn nnn => wordNNN 0xA#4 nnn
  | .jpV0Nnn nnn => wordNNN 0xB#4 nnn
  | .rndVxNn x nn => wordXNN 0xC#4 x nn
  | .drwVxVyN x y n => wordXYN 0xD#4 x y n
  | .skpVx x => wordXNN 0xE#4 x 0x9E#8
  | .sknpVx x => wordXNN 0xE#4 x 0xA1#8
  | .ldVxDt x => wordXNN 0xF#4 x 0x07#8
  | .ldVxK x => wordXNN 0xF#4 x 0x0A#8
  | .ldDtVx x => wordXNN 0xF#4 x 0x15#8
  | .ldStVx x => wordXNN 0xF#4 x 0x18#8
  | .addIVx x => wordXNN 0xF#4 x 0x1E#8
  | .ldFVx x => wordXNN 0xF#4 x 0x29#8
  | .ldBVx x => wordXNN 0xF#4 x 0x33#8
  | .ldMemVx x => wordXNN 0xF#4 x 0x55#8
  | .ldVxMem x => wordXNN 0xF#4 x 0x65#8
  | .brk => 0xFFFF#16

/-- A row of the opcode table: a word `w` selects it when `w AND mask = pattern`
(30_encoding.md R99). -/
structure OpcodeRow where
  pattern : Word
  mask    : Word
  deriving DecidableEq, Repr

/-- The opcode table, in the order of 30_encoding.md R96. -/
def opcodeTable : List OpcodeRow :=
  [⟨0x00E0#16, 0xFFFF#16⟩,
   ⟨0x00EE#16, 0xFFFF#16⟩,
   ⟨0x0000#16, 0xF000#16⟩,
   ⟨0x1000#16, 0xF000#16⟩,
   ⟨0x2000#16, 0xF000#16⟩,
   ⟨0x3000#16, 0xF000#16⟩,
   ⟨0x4000#16, 0xF000#16⟩,
   ⟨0x5000#16, 0xF00F#16⟩,
   ⟨0x6000#16, 0xF000#16⟩,
   ⟨0x7000#16, 0xF000#16⟩,
   ⟨0x8000#16, 0xF00F#16⟩,
   ⟨0x8001#16, 0xF00F#16⟩] ++
  [⟨0x8002#16, 0xF00F#16⟩,
   ⟨0x8003#16, 0xF00F#16⟩,
   ⟨0x8004#16, 0xF00F#16⟩,
   ⟨0x8005#16, 0xF00F#16⟩,
   ⟨0x8006#16, 0xF00F#16⟩,
   ⟨0x8007#16, 0xF00F#16⟩,
   ⟨0x800E#16, 0xF00F#16⟩,
   ⟨0x9000#16, 0xF00F#16⟩,
   ⟨0xA000#16, 0xF000#16⟩,
   ⟨0xB000#16, 0xF000#16⟩,
   ⟨0xC000#16, 0xF000#16⟩,
   ⟨0xD000#16, 0xF000#16⟩] ++
  [⟨0xE09E#16, 0xF0FF#16⟩,
   ⟨0xE0A1#16, 0xF0FF#16⟩,
   ⟨0xF007#16, 0xF0FF#16⟩,
   ⟨0xF00A#16, 0xF0FF#16⟩,
   ⟨0xF015#16, 0xF0FF#16⟩,
   ⟨0xF018#16, 0xF0FF#16⟩,
   ⟨0xF01E#16, 0xF0FF#16⟩,
   ⟨0xF029#16, 0xF0FF#16⟩,
   ⟨0xF033#16, 0xF0FF#16⟩,
   ⟨0xF055#16, 0xF0FF#16⟩,
   ⟨0xF065#16, 0xF0FF#16⟩,
   ⟨0xFFFF#16, 0xFFFF#16⟩]

/-- A word selects row `k`: mask and pattern agree, and the row of `0nnn` (number 2) leaves `00E0`
and `00EE` to their fixed rows (30_encoding.md R94, R99). -/
def selectsRow (w : Word) (k : Nat) : Prop :=
  ∃ r, opcodeTable[k]? = some r ∧ w &&& r.mask = r.pattern ∧
    (k = 2 → w ≠ 0x00E0#16 ∧ w ≠ 0x00EE#16)

/-- The row an instruction stands for (30_encoding.md R96). -/
def Instr.row : Instr → Nat
  | .cls => 0
  | .ret => 1
  | .sys _ => 2
  | .jp _ => 3
  | .call _ => 4
  | .seVxNn _ _ => 5
  | .sneVxNn _ _ => 6
  | .seVxVy _ _ => 7
  | .ldVxNn _ _ => 8
  | .addVxNn _ _ => 9
  | .ldVxVy _ _ => 10
  | .orVxVy _ _ => 11
  | .andVxVy _ _ => 12
  | .xorVxVy _ _ => 13
  | .addVxVy _ _ => 14
  | .subVxVy _ _ => 15
  | .shrVxVy _ _ => 16
  | .subnVxVy _ _ => 17
  | .shlVxVy _ _ => 18
  | .sneVxVy _ _ => 19
  | .ldINnn _ => 20
  | .jpV0Nnn _ => 21
  | .rndVxNn _ _ => 22
  | .drwVxVyN _ _ _ => 23
  | .skpVx _ => 24
  | .sknpVx _ => 25
  | .ldVxDt _ => 26
  | .ldVxK _ => 27
  | .ldDtVx _ => 28
  | .ldStVx _ => 29
  | .addIVx _ => 30
  | .ldFVx _ => 31
  | .ldBVx _ => 32
  | .ldMemVx _ => 33
  | .ldVxMem _ => 34
  | .brk => 35

/-- The encoder's bytes, in RAM order. -/
def encodeBytes (i : Instr) : List Byte := bytesOfWord (encode i)

/-- The table's numbering of a row's bits as a word: bits above `nbits` are 0. -/
def tableWord (nbits w : Nat) : Word := BitVec.ofNat 16 (w % 2 ^ nbits)

/-- The instruction the decoder reads from the bits of a row of the opcode table. -/
def decodeTableWord (nbits w : Nat) : Option Instr :=
  match decode (bytesOfWord (tableWord nbits w)) with
  | .ok (i, _) => some i
  | .error _ => none

end Sys2Proof
end

