-- ==== Sys2Proof/Machine/State.lean ====
section
/-! DEFINITION. The state of the engine and of what stands at its ports, as plain data
(10_state.md sections 1 to 10). -/

namespace Sys2Proof.Machine

/-- RAM as the cells that differ from the reset contents: addresses strictly rising, no cell equal
to what an unlisted address reads as (`ramDefault`, in Machine/Ops.lean; 20_memory.md R60, R62). -/
abbrev Memory := List Host.Cell

/-- The display: 32 rows of 64 one-bit pixels; column `px` of a row is its bit `px`
(10_state.md R33; 44_display.md R180). The packing is the model's (log 19). -/
abbrev Display := Vector (BitVec 64) 32

/-- A timer: "an 8-bit starting value and an optional reference timestamp" in ms; no timestamp means
expired or inactive (10_state.md R34). -/
structure Timer where
  start : Byte
  ref   : Option Nat
  deriving DecidableEq, Repr

/-- The run state (10_state.md R35). -/
inductive RunState where
  | running
  | halted
  | faulted
  | aborted
  deriving DecidableEq, Repr

/-- The phase of a running engine (10_state.md R36). -/
inductive Phase where
  | fetch
  | waitKey (r : Reg)
  deriving DecidableEq, Repr

/-- The fault causes (60_exceptions.md R261). `registerIndex` is raised by nothing (R263). -/
inductive FaultCause where
  | stackUnderflow
  | decodeFault
  | registerIndex
  | addressFault
  | stackOverflow
  | romOversize
  deriving DecidableEq, Repr

/-- The fault record (10_state.md R37). `word` is `fault_word`, none where its valid bit is 0. -/
structure FaultRecord where
  cause : FaultCause
  addr  : Word
  word  : Option Word
  info  : Word
  deriving DecidableEq, Repr

/-- What the debug port shows in one cycle (10_state.md R56, R33; 92_eei_decisions.md D29), log 10. -/
structure DebugSnapshot where
  pc     : Word
  i      : Word
  word   : Option Word
  fields : Option Fields
  dt     : Byte
  st     : Byte
  v      : Vector Byte 16
  stack  : List Word
  disp   : Display
  run    : RunState
  phase  : Phase
  fault  : Option FaultRecord
  deriving DecidableEq, Repr

/-- Where moves come from once the list `moves` is used up (log 4). -/
inductive Supply where
  /-- from nowhere: it is the engine's turn, for ever -/
  | quiet
  /-- from the free sequence `Config.freeMove`, at this position: any moves, for ever -/
  | free (k : Nat)
  deriving DecidableEq, Repr

/-- The whole state. -/
structure State where
  /-- `V[0..15]` (10_state.md R20) -/
  v            : Vector Byte 16
  /-- program counter (10_state.md R25) -/
  pc           : Word
  /-- index register `I` (10_state.md R29) -/
  i            : Word
  /-- return addresses, top first (10_state.md R31) -/
  stack        : List Word
  /-- RAM (10_state.md R32) -/
  mem          : Memory
  /-- display (10_state.md R33) -/
  disp         : Display
  /-- delay timer (10_state.md R34) -/
  dt           : Timer
  /-- sound timer (10_state.md R34) -/
  st           : Timer
  /-- run state (10_state.md R35) -/
  run          : RunState
  /-- phase (10_state.md R36) -/
  phase        : Phase
  /-- fault record, none while invalid (10_state.md R37) -/
  fault        : Option FaultRecord
  /-- buffered key presses, oldest first (10_state.md R38) -/
  keyq         : List KeyCode
  /-- latched interrupt event (10_state.md R38) -/
  abortPending : Bool
  /-- latched halt request (10_state.md R38) -/
  haltPending  : Bool
  /-- configuration (10_state.md R39) -/
  cfg          : Configuration
  /-- wall clock, whole milliseconds (10_state.md R54) -/
  now          : Nat
  /-- frames pushed on the frame port, newest first (10_state.md R55), log 11 -/
  frames       : List Display
  /-- snapshots exposed on the debug port, newest first (10_state.md R56), log 11 -/
  debugOut     : List DebugSnapshot
  /-- the model's own: the agents' moves to come (log 4) -/
  moves        : List Move
  /-- the model's own: where moves come from after those in `moves` (log 4) -/
  supply       : Supply
  /-- the model's own: counter of the free values `Config.unspecifiedRam` and `Config.abortFirst`
  (logs 7 and 9) -/
  freeCtr      : Nat
  deriving DecidableEq, Repr

/-- Faults as outcomes of a step. Every fault of the spec that a cycle or a load can raise is TAKEN:
a next state with `run` faulted and the record written (60_exceptions.md R266), log 6. -/
inductive Fault where
  /-- "register index out of the 0-15 range" (60_exceptions.md R263): raised by nothing, since a
  register number is a 4-bit field. Safe. -/
  | registerIndex
  deriving DecidableEq, Repr

/-- Refusals. -/
inductive Refusal where
  /-- An instruction without a meaning. Raised by no arm of exec: all 36 are modelled. Safe. -/
  | notModelled (mnemonic : String)
  /-- The engine's turn with `TIME_SCALE` = 0 or `STACK_CAPACITY` = 0: the treatment `refuse` of
  93_implementation_defined.md U17. Raised by `engineTurn`, by no instruction. Safe, log 14. -/
  | configurationOutOfRange
  /-- The host sets the configuration while the engine runs, against "constant while the engine runs"
  (10_state.md R39). Raised by `deliver`, by no instruction. Safe, log 14. -/
  | reconfiguredWhileRunning
  deriving DecidableEq, Repr

/-- An inactive timer: `start` 0, `ref` none (10_state.md R50). -/
def Timer.off : Timer := { start := 0, ref := none }

/-- The machine right after a cold reset with the empty ROM (10_state.md R50; 70_reset_and_hazards.md
R300, R301). RAM, display, stack, `pc`, `run` are the source's; `V`, `I`, the timers, the phase,
`keyq`, the pending bits and the record are the spec's own decision D5 (log 2); the configuration is
log 3, the clock log 13, the ports log 11, the model's own fields logs 4, 7 and 9. -/
def State.reset : State :=
  { v            := Vector.replicate 16 0
    pc           := 0x0200
    i            := 0x0000
    stack        := []
    mem          := []
    disp         := Vector.replicate 32 0
    dt           := Timer.off
    st           := Timer.off
    run          := .running
    phase        := .fetch
    fault        := none
    keyq         := []
    abortPending := false
    haltPending  := false
    cfg          := Config.default
    now          := 0
    frames       := []
    debugOut     := []
    moves        := []
    supply       := .quiet
    freeCtr      := 0 }

/-- What a meaning answers. -/
abbrev Result := Host.Outcome State Fault Refusal

end Sys2Proof.Machine
end

