-- ==== Sys2Proof/Machine/Ops.lean ====
section
/-! DEFINITION. The named operations over RAM, registers, stack, ports and the run state, and fault
entry as one operation (20_memory.md R60 to R78; 60_exceptions.md R260 to R275). -/

namespace Sys2Proof.Machine

/-! ### RAM -/

/-- What an unlisted address reads as: the reset contents of RAM, the font at 0x000 to 0x04F and
0x00 elsewhere (20_memory.md R62; 70_reset_and_hazards.md R300). -/
def ramDefault (a : Nat) : Byte := Config.font.getD a 0

/-- The byte at an address of RAM (20_memory.md R66, in range). -/
def Memory.read : Memory → Nat → Byte
  | [], a => ramDefault a
  | (k, b) :: m, a => if k = a then b else Memory.read m a

/-- Put a cell in front of cells at higher addresses, unless it equals the default. -/
def Memory.consCell (a : Nat) (b : Byte) (m : Memory) : Memory :=
  if b = ramDefault a then m else (a, b) :: m

/-- Write one byte, keeping the canonical form (20_memory.md R69, in range). -/
def Memory.write : Memory → Nat → Byte → Memory
  | [], a, b => Memory.consCell a b []
  | (k, c) :: m, a, b =>
    if a < k then Memory.consCell a b ((k, c) :: m)
    else if a = k then Memory.consCell a b m
    else (k, c) :: Memory.write m a b

/-- Write bytes at `a`, `a + 1`, ... The cells are distinct, so the order of the writes does not
show (20_memory.md R71). -/
def Memory.writeAll (m : Memory) (a : Nat) : List Byte → Memory
  | [] => m
  | b :: bs => Memory.write (Memory.writeAll m (a + 1) bs) a b

/-- The canonical form from address `lo` on: rising, in RAM, no cell equal to the default. -/
def Memory.wfFrom (lo : Nat) : Memory → Bool
  | [] => true
  | (a, b) :: m =>
    decide (lo ≤ a) && decide (a < Config.ramSize) && (b != ramDefault a) && Memory.wfFrom (a + 1) m

/-- The canonical form of RAM. -/
def Memory.wf (m : Memory) : Bool := Memory.wfFrom 0 m

/-- The bounds check of an access to `k` bytes at `a`, on unbounded integers: none in range, else
the lowest out-of-range address the access would touch (20_memory.md R68; 47_index_memory.md R246). -/
def rangeFault (a k : Nat) : Option Nat :=
  if k ≠ 0 ∧ 0xFFF < a + k - 1 then some (max a 0x1000) else none

/-- The bytes at `a` to `a + k - 1`, in range. -/
def Memory.bytes (m : Memory) (a k : Nat) : List Byte :=
  (List.range k).map (fun j => Memory.read m (a + j))

/-- One byte of RAM as the state holds it. -/
def State.readByte (s : State) (a : Nat) : Byte := Memory.read s.mem a

/-- `MemRead` of `k` bytes in ascending order, the whole range checked first; `k` = 1 is R66's
access. The error is the address an `AddressFault` reports. -/
def State.readRange (s : State) (a k : Nat) : Except Nat (List Byte) :=
  match rangeFault a k with
  | some e => .error e
  | none => .ok (Memory.bytes s.mem a k)

/-- `MemRead(addr, 2)`, the instruction fetch: the lower address is the high byte (20_memory.md R67). -/
def State.readWord (s : State) (a : Nat) : Except Nat Word :=
  match rangeFault a 2 with
  | some e => .error e
  | none => .ok (wordOfBytes (s.readByte a) (s.readByte (a + 1)))

/-- `MemWrite` of a sequence of bytes, the whole range checked before anything is written
(20_memory.md R69; 47_index_memory.md R246); one byte is R69's access. -/
def State.writeRange (s : State) (a : Nat) (bs : List Byte) : Except Nat State :=
  match rangeFault a bs.length with
  | some e => .error e
  | none => .ok { s with mem := Memory.writeAll s.mem a bs }

/-! ### Registers -/

/-- Read `V[x]` (10_state.md R21). -/
def State.reg (s : State) (x : Reg) : Byte := s.v[x]

/-- Write `V[x]`; no register is hardwired (10_state.md R20, R21). -/
def State.setReg (s : State) (x : Reg) (b : Byte) : State := { s with v := s.v.set x b }

/-- Write `pc` (10_state.md R25). -/
def State.setPc (s : State) (t : Word) : State := { s with pc := t }

/-- Write `I` (10_state.md R29). -/
def State.setI (s : State) (t : Word) : State := { s with i := t }

/-- `V[0]` to `V[x]` in ascending order (47_index_memory.md R244). -/
def State.regsUpTo (s : State) (x : Reg) : List Byte :=
  (List.range (x.val + 1)).map (fun j => s.reg (Fin.ofNat 16 j))

/-- Load bytes into `V[j]`, `V[j + 1]`, ... in ascending order (47_index_memory.md R245). -/
def State.loadRegs (s : State) (j : Nat) : List Byte → State
  | [] => s
  | b :: bs => State.loadRegs (s.setReg (Fin.ofNat 16 j) b) (j + 1) bs

/-- `pc <- pc + 2` (mod 65536) when the condition holds: a skip (41_skips.md R140). -/
def State.skipIf (s : State) (c : Bool) : State := if c then s.setPc (s.pc + 2) else s

/-! ### Fault entry -/

/-- The code of a fault cause (60_exceptions.md R261). -/
def causeCode : FaultCause → Nat
  | .stackUnderflow => 1
  | .decodeFault => 2
  | .registerIndex => 3
  | .addressFault => 4
  | .stackOverflow => 5
  | .romOversize => 6

/-- Fault entry: the record is written and `run` becomes faulted; nothing is pushed, no register is
saved and `pc` is not redirected (60_exceptions.md R266). There is no return: only a reset leaves
`faulted` (R275; Machine/Reset.lean). -/
def State.raise (s : State) (r : FaultRecord) : State := { s with run := .faulted, fault := some r }

/-- The address the instruction in its body was fetched from: `pc` holds `a + 2` there
(40_cycle_and_control_flow.md R120), log 18. -/
def State.instrAddr (s : State) : Word := s.pc - 2

/-- `raise` from the body of the instruction with word `w` (60_exceptions.md R262 to R267). -/
def State.raiseBody (s : State) (cause : FaultCause) (w : Word) (info : Word) : State :=
  s.raise { cause := cause, addr := s.instrAddr, word := some w, info := info }

/-- `raise AddressFault` from a body; `e` is the offending address (60_exceptions.md R264). -/
def State.raiseAddress (s : State) (w : Word) (e : Nat) : State :=
  s.raiseBody .addressFault w (BitVec.ofNat 16 e)

/-- `raise AddressFault` from the fetch at `pc`: no word was read (60_exceptions.md R264). -/
def State.raiseFetch (s : State) (e : Nat) : State :=
  s.raise { cause := .addressFault, addr := s.pc, word := none, info := BitVec.ofNat 16 e }

/-! ### Stack -/

/-- `Push(v)`; none where it raises `StackOverflow` (20_memory.md R76). -/
def State.push (s : State) (t : Word) : Option State :=
  if s.stack.length = s.cfg.stackCapacity then none else some { s with stack := t :: s.stack }

/-- `Pop()`; none where it raises `StackUnderflow` (20_memory.md R77). -/
def State.pop (s : State) : Option (Word × State) :=
  match s.stack with
  | [] => none
  | t :: rest => some (t, { s with stack := rest })

/-! ### Run state, phase, ports -/

/-- Write `run` (10_state.md R35). -/
def State.setRun (s : State) (r : RunState) : State := { s with run := r }

/-- Write the phase (10_state.md R36). -/
def State.setPhase (s : State) (p : Phase) : State := { s with phase := p }

/-- Write the display (10_state.md R33). -/
def State.setDisp (s : State) (d : Display) : State := { s with disp := d }

/-- Write the delay timer (10_state.md R34). -/
def State.setDt (s : State) (t : Timer) : State := { s with dt := t }

/-- Write the sound timer (10_state.md R34). -/
def State.setSt (s : State) (t : Timer) : State := { s with st := t }

/-- Write the key buffer (10_state.md R38). -/
def State.setKeyq (s : State) (q : List KeyCode) : State := { s with keyq := q }

/-- `emit Frame`: the display as it is now goes to the frame port (44_display.md R184). -/
def State.emitFrame (s : State) : State := { s with frames := s.disp :: s.frames }

/-- A free value has been used: the counter moves on, so that the next one is a fresh one (logs 7
and 9). -/
def State.nextFree (s : State) : State := { s with freeCtr := s.freeCtr + 1 }

/-- Apply a function to a next state. -/
def mapNext (f : State → State) : Result → Result
  | .next s => .next (f s)
  | .fault r => .fault r
  | .refused r => .refused r

end Sys2Proof.Machine
end

