-- ==== Sys2Proof/Machine/Flags.lean ====
section
/-! DEFINITION. The arithmetic with a flag, and the one operation that writes a result and then the
flag (43_alu.md R160, R165 to R171; 10_state.md R23). -/

namespace Sys2Proof.Machine

/-- A result and the flag that goes to `VF`. -/
structure AluResult where
  value : Byte
  flag  : Byte
  deriving DecidableEq, Repr

/-- A flag value, 0x00 or 0x01 (10_state.md R23). -/
def flagByte (c : Bool) : Byte := if c then 1 else 0

/-- Sum mod 256, and carry exactly when the unbounded sum exceeds 255 (43_alu.md R165, R170). -/
def aluAdd (p q : Byte) : AluResult :=
  { value := BitVec.ofNat 8 ((p.toNat + q.toNat) % 256)
    flag  := flagByte (decide (255 < p.toNat + q.toNat)) }

/-- Difference `(p - q) mod 256`, and NOT borrow exactly when `p >= q` (43_alu.md R166, R168, R170). -/
def aluSub (p q : Byte) : AluResult :=
  { value := BitVec.ofNat 8 ((p.toNat + 256 - q.toNat) % 256)
    flag  := flagByte (decide (q.toNat ≤ p.toNat)) }

/-- `q div 2`, and bit 0 of `q` (43_alu.md R167). -/
def aluShr (q : Byte) : AluResult :=
  { value := BitVec.ofNat 8 (q.toNat / 2), flag := flagByte (q.getLsbD 0) }

/-- `(q * 2) mod 256`, and bit 7 of `q` (43_alu.md R169). -/
def aluShl (q : Byte) : AluResult :=
  { value := BitVec.ofNat 8 (q.toNat * 2 % 256), flag := flagByte (q.getLsbD 7) }

/-- `V[x] <- result`, then `V[15] <- flag`: the flag is the last write (43_alu.md R160). -/
def State.setRegFlag (s : State) (x : Reg) (r : AluResult) : State :=
  (s.setReg x r.value).setReg vF r.flag

end Sys2Proof.Machine
end

