-- ==== Sys2Proof/Machine/Alu.lean ====
section
/-! DEFINITION. The register-register ALU (43_alu.md R160 to R171). -/

namespace Sys2Proof.Machine

/-- `8xy0` (R161). -/
def execLdVxVy (x y : Reg) (s : State) : Result := .next (s.setReg x (s.reg y))

/-- `8xy1` (R162): no flag. -/
def execOrVxVy (x y : Reg) (s : State) : Result := .next (s.setReg x (s.reg x ||| s.reg y))

/-- `8xy2` (R163): no flag. -/
def execAndVxVy (x y : Reg) (s : State) : Result := .next (s.setReg x (s.reg x &&& s.reg y))

/-- `8xy3` (R164): no flag. -/
def execXorVxVy (x y : Reg) (s : State) : Result := .next (s.setReg x (s.reg x ^^^ s.reg y))

/-- `8xy4` (R165): carry. -/
def execAddVxVy (x y : Reg) (s : State) : Result :=
  .next (s.setRegFlag x (aluAdd (s.reg x) (s.reg y)))

/-- `8xy5` (R166): `x - y`, NOT borrow. -/
def execSubVxVy (x y : Reg) (s : State) : Result :=
  .next (s.setRegFlag x (aluSub (s.reg x) (s.reg y)))

/-- `8xy6` (R167): the source is `V[y]`. -/
def execShrVxVy (x y : Reg) (s : State) : Result := .next (s.setRegFlag x (aluShr (s.reg y)))

/-- `8xy7` (R168): `y - x`, NOT borrow. -/
def execSubnVxVy (x y : Reg) (s : State) : Result :=
  .next (s.setRegFlag x (aluSub (s.reg y) (s.reg x)))

/-- `8xyE` (R169): the source is `V[y]`. -/
def execShlVxVy (x y : Reg) (s : State) : Result := .next (s.setRegFlag x (aluShl (s.reg y)))

end Sys2Proof.Machine
end

