-- ==== Sys2Proof/Machine/Operands.lean ====
section
/-! DEFINITION. The operand forms: literals of the word, the font address, the decimal digits
(30_encoding.md R93; 47_index_memory.md R240). The register operands are `State.reg`, the bytes at
`I` are `State.readRange`. -/

namespace Sys2Proof.Machine

/-- `zext_16(nnn)`: a byte address, not scaled (30_encoding.md R93). -/
def zextAddr (nnn : Addr12) : Word := nnn.setWidth 16

/-- `zext_16` of a register value (40_cycle_and_control_flow.md R126; 47_index_memory.md R241). -/
def zextByte (b : Byte) : Word := b.setWidth 16

/-- `zext_8` of a key code (45_keypad.md R203, R208). -/
def zextKey (c : KeyCode) : Byte := c.setWidth 8

/-- The font address of the low nibble of a register: `FONT_BASE + 5 * V[x][3:0]`, `FONT_BASE` = 0
(47_index_memory.md R242). -/
def glyphAddr (b : Byte) : Word := BitVec.ofNat 16 (5 * (b.extractLsb' 0 4).toNat)

/-- Hundreds, tens and ones of a register, one byte each (47_index_memory.md R243). -/
def bcdDigits (b : Byte) : List Byte :=
  [BitVec.ofNat 8 (b.toNat / 100), BitVec.ofNat 8 (b.toNat / 10 % 10), BitVec.ofNat 8 (b.toNat % 10)]

/-- `I` as the base of an access, on unbounded integers (47_index_memory.md R240). -/
def State.baseAddr (s : State) : Nat := s.i.toNat

/-- `I <- (I + x + 1) mod 65536` after a block transfer (47_index_memory.md R244, R245). -/
def State.advanceI (s : State) (x : Reg) : State := s.setI (s.i + BitVec.ofNat 16 (x.val + 1))

end Sys2Proof.Machine
end

