-- ==== Sys2Proof/Machine/ControlFlow.lean ====
section
/-! DEFINITION. Control transfer and halting (40_cycle_and_control_flow.md R122 to R127). In every
meaning `pc` already holds `a + 2` (R120). -/

namespace Sys2Proof.Machine

/-- `00EE` (R122): `pc <- Pop()`; `StackUnderflow` on an empty stack. -/
def execRet (s : State) : Result :=
  match s.pop with
  | some (t, s') => .next (s'.setPc t)
  | none => .next (s.raiseBody .stackUnderflow (encode .ret) 0)

/-- `0nnn` (R123): halt; `nnn` is ignored. -/
def execSys (_nnn : Addr12) (s : State) : Result := .next (s.setRun .halted)

/-- `1nnn` (R124). -/
def execJp (nnn : Addr12) (s : State) : Result := .next (s.setPc (zextAddr nnn))

/-- `2nnn` (R125): `Push(pc)`, then jump; `StackOverflow` when the stack is full. -/
def execCall (nnn : Addr12) (s : State) : Result :=
  match s.push s.pc with
  | some s' => .next (s'.setPc (zextAddr nnn))
  | none => .next (s.raiseBody .stackOverflow (encode (.call nnn)) 0)

/-- `Bnnn` (R126): `nnn + V[0]`, no reduction mod 4096. -/
def execJpV0Nnn (nnn : Addr12) (s : State) : Result :=
  .next (s.setPc (zextAddr nnn + zextByte (s.reg 0)))

/-- `FFFF` (R127): halt. -/
def execBrk (s : State) : Result := .next (s.setRun .halted)

end Sys2Proof.Machine
end

