-- ==== Sys2Proof/Machine/Display.lean ====
section
/-! DEFINITION. The sprite blitter, the frame and the display instructions (44_display.md R180 to
R185). -/

namespace Sys2Proof.Machine

/-- Pixel (`px`, `py`), clear outside the 64 by 32 area (44_display.md R180; 20_memory.md R78). -/
def Display.pixel (d : Display) (px py : Nat) : Bool :=
  match d[py]? with
  | some row => row.getLsbD px
  | none => false

/-- Cell `Disp[n]`, `n` = `py * 64 + px` (10_state.md R33). -/
def Display.cell (d : Display) (n : Nat) : Bool := Display.pixel d (n % 64) (n / 64)

/-- `Disp[py * 64 + px] <- Disp[py * 64 + px] XOR 1`. -/
def Display.flip (d : Display) (px py : Nat) : Display :=
  match d[py]? with
  | some row => d.setIfInBounds py (row ^^^ BitVec.twoPow 64 px)
  | none => d

/-- The clear display (44_display.md R181). -/
def Display.clear : Display := Vector.replicate 32 0

/-- The blitter's working state: the display and the collision bit. -/
structure BlitState where
  disp      : Display
  collision : Bool
  deriving DecidableEq, Repr

/-- One pixel of the inner loop of `Blit`: column offset `c` of a sprite row at (`x0`, `py`)
(44_display.md R182). -/
def blitPixel (row : Byte) (x0 py c : Nat) (b : BlitState) : BlitState :=
  if x0 + c ≤ 63 ∧ row.getLsbD (7 - c) = true then
    { disp := Display.flip b.disp (x0 + c) py
      collision := b.collision || Display.pixel b.disp (x0 + c) py }
  else b

/-- The inner loop: `c` from 0 to 7, dropped whole when the row is below the bottom edge. -/
def blitRow (row : Byte) (x0 py : Nat) (b : BlitState) : BlitState :=
  if py ≤ 31 then (List.range 8).foldl (fun acc c => blitPixel row x0 py c acc) b else b

/-- The outer loop: one row of the sprite under the other. -/
def blitRows (x0 : Nat) : Nat → List Byte → BlitState → BlitState
  | _, [], b => b
  | py, row :: rows, b => blitRows x0 (py + 1) rows (blitRow row x0 py b)

/-- `Blit(x0raw, y0raw, rows)`: only the origin is reduced (44_display.md R182). -/
def blit (d : Display) (x0raw y0raw : Byte) (rows : List Byte) : BlitState :=
  blitRows (x0raw.toNat % 64) (y0raw.toNat % 32) rows { disp := d, collision := false }

/-- The bytes of a frame: 2048, 0x01 for a set cell and 0x00 for a clear one (44_display.md R184). -/
def frameBytes (d : Display) : List Byte :=
  (List.range 2048).map (fun n => flagByte (Display.cell d n))

/-- `00E0` (R181). -/
def execCls (s : State) : Result := .next (s.setDisp Display.clear).emitFrame

/-- `Dxyn` (R183): all `n` bytes are read first, then the blit, then `VF`, then the frame. -/
def execDrwVxVyN (x y : Reg) (n : Nibble) (s : State) : Result :=
  match s.readRange s.baseAddr n.toNat with
  | .error e => .next (s.raiseAddress (encode (.drwVxVyN x y n)) e)
  | .ok rows =>
    let b := blit s.disp (s.reg x) (s.reg y) rows
    .next ((s.setDisp b.disp).setReg vF (flagByte b.collision)).emitFrame

end Sys2Proof.Machine
end

