-- ==== Sys2Proof/Machine/IndexMemory.lean ====
section
/-! DEFINITION. Index-register arithmetic, loads and stores (47_index_memory.md R240 to R246). -/

namespace Sys2Proof.Machine

/-- `Fx1E` (R241): mod 65536, no flag. -/
def execAddIVx (x : Reg) (s : State) : Result := .next (s.setI (s.i + zextByte (s.reg x)))

/-- `Fx29` (R242). -/
def execLdFVx (x : Reg) (s : State) : Result := .next (s.setI (glyphAddr (s.reg x)))

/-- `Fx33` (R243): the three digits at `I`, `I + 1`, `I + 2`. -/
def execLdBVx (x : Reg) (s : State) : Result :=
  match s.writeRange s.baseAddr (bcdDigits (s.reg x)) with
  | .error e => .next (s.raiseAddress (encode (.ldBVx x)) e)
  | .ok s' => .next s'

/-- `Fx55` (R244): `V[0]` to `V[x]` at `I`, then `I` advances. -/
def execLdMemVx (x : Reg) (s : State) : Result :=
  match s.writeRange s.baseAddr (s.regsUpTo x) with
  | .error e => .next (s.raiseAddress (encode (.ldMemVx x)) e)
  | .ok s' => .next (s'.advanceI x)

/-- `Fx65` (R245): `V[0]` to `V[x]` from `I`, then `I` advances. -/
def execLdVxMem (x : Reg) (s : State) : Result :=
  match s.readRange s.baseAddr (x.val + 1) with
  | .error e => .next (s.raiseAddress (encode (.ldVxMem x)) e)
  | .ok bs => .next ((s.loadRegs 0 bs).advanceI x)

end Sys2Proof.Machine
end

