-- ==== Sys2Proof/Machine/Keypad.lean ====
section
/-! DEFINITION. The Input Controller's queries and the keypad instructions (45_keypad.md R200 to
R209). -/

namespace Sys2Proof.Machine

/-- The result of `KeyScan(k)`: some buffered press has code `k`, all 8 bits compared (R203). -/
def keyScan (k : Byte) (q : List KeyCode) : Bool := q.any (fun c => zextKey c == k)

/-- What `KeyScan` leaves: it drains the buffer (R203). -/
def State.drainKeys (s : State) : State := s.setKeyq []

/-- `Ex9E` (R206). -/
def execSkpVx (x : Reg) (s : State) : Result := .next (s.drainKeys.skipIf (keyScan (s.reg x) s.keyq))

/-- `ExA1` (R207). -/
def execSknpVx (x : Reg) (s : State) : Result :=
  .next (s.drainKeys.skipIf (!keyScan (s.reg x) s.keyq))

/-- `Fx0A` (R208), the body: the engine enters the wait; `State.waitTurn` is the rest. -/
def execLdVxK (x : Reg) (s : State) : Result := .next (s.setPhase (.waitKey x))

/-- The abort step of a key wait (R208). -/
def State.abortWait (s : State) : State := s.setRun .aborted

/-- The completion step of a key wait, with `c` the head of `keyq` and `rest` what stands behind it
(R208, R204). -/
def State.completeWait (s : State) (r : Reg) (c : KeyCode) (rest : List KeyCode) : State :=
  ((s.setReg r (zextKey c)).setKeyq rest).setPhase .fetch

/-- The engine's turn in phase WAITKEY(r): the completion step is enabled exactly when `keyq` is not
empty, the abort step when `abort_pending`; with neither the wait goes on (R208; 60_exceptions.md R271;
log 5). With both, a free value takes one of the two, log 7. -/
def State.waitTurn (s : State) (r : Reg) : State :=
  match s.keyq, s.abortPending with
  | [], false => s
  | [], true => s.abortWait
  | c :: rest, false => s.completeWait r c rest
  | c :: rest, true =>
    if Config.abortFirst s.freeCtr then s.nextFree.abortWait else s.nextFree.completeWait r c rest

end Sys2Proof.Machine
end

