-- ==== Sys2Proof/Machine/LoadImmediate.lean ====
section
/-! DEFINITION. Literal loads and adds, and the "random" instruction (42_load_immediate.md R151 to
R154). -/

namespace Sys2Proof.Machine

/-- `6xnn` (R151). -/
def execLdVxNn (x : Reg) (nn : Byte) (s : State) : Result := .next (s.setReg x nn)

/-- `7xnn` (R152): mod 256, no flag. -/
def execAddVxNn (x : Reg) (nn : Byte) (s : State) : Result := .next (s.setReg x (s.reg x + nn))

/-- `Annn` (R153). -/
def execLdINnn (nnn : Addr12) (s : State) : Result := .next (s.setI (zextAddr nnn))

/-- `Cxnn` (R154): `RND_VALUE AND nn`, deterministic by the rule. -/
def execRndVxNn (x : Reg) (nn : Byte) (s : State) : Result :=
  .next (s.setReg x (Config.rndValue &&& nn))

end Sys2Proof.Machine
end

