-- ==== Sys2Proof/Machine/Timers.lean ====
section
/-! DEFINITION. The timer unit and the timer instructions (46_timers.md R220 to R231). `Now()` is
`State.now` (R221). -/

namespace Sys2Proof.Machine

/-- `Set(T, v)` at time `t` (R222). -/
def timerSet (b : Byte) (t : Nat) : Timer := { start := b, ref := some t }

/-- `Ticks(T, t)` for a reference `r`: whole ticks of 16 ms (R223). -/
def timerTicks (r t : Nat) : Nat := (t - r) / Config.tickMs

/-- `ReadMut(T)` at time `t`: the value read and the timer left (R224). -/
def timerReadMut (scale : Nat) (T : Timer) (t : Nat) : Byte × Timer :=
  match T.ref with
  | none => (0, T)
  | some r =>
    let e := timerTicks r t / scale
    if T.start.toNat ≤ e then (0, { T with ref := none })
    else (BitVec.ofNat 8 (T.start.toNat - e), T)

/-- `Peek(T)` at time `t`: no time scale, no write (R225). -/
def timerPeek (T : Timer) (t : Nat) : Byte :=
  match T.ref with
  | none => 0
  | some r => BitVec.ofNat 8 (T.start.toNat - timerTicks r t)

/-- `Fx07` (R228). -/
def execLdVxDt (x : Reg) (s : State) : Result :=
  let p := timerReadMut s.cfg.timeScale s.dt s.now
  .next ((s.setDt p.2).setReg x p.1)

/-- `Fx15` (R229). -/
def execLdDtVx (x : Reg) (s : State) : Result := .next (s.setDt (timerSet (s.reg x) s.now))

/-- `Fx18` (R230). -/
def execLdStVx (x : Reg) (s : State) : Result := .next (s.setSt (timerSet (s.reg x) s.now))

end Sys2Proof.Machine
end

