-- ==== Sys2Proof/Machine/Reset.lean ====
section
/-! DEFINITION. Reset and load (70_reset_and_hazards.md R300 to R302; 60_exceptions.md R268). -/

namespace Sys2Proof.Machine

/-- Steps (3) and (4) of R300 over RAM contents `m`: stack, display, registers, `I`, timers, phase,
key buffer, pending bits and fault record take the values of 10_state.md R50. The configuration,
the clock and what the ports have been given are not touched. -/
def State.clearFor (s : State) (m : Memory) : State :=
  { s with
    mem := m, stack := [], disp := Vector.replicate 32 0, v := Vector.replicate 16 0, i := 0,
    dt := Timer.off, st := Timer.off, phase := .fetch, keyq := [],
    abortPending := false, haltPending := false, fault := none }

/-- The free values of RAM 0x200 to 0xFFF (60_exceptions.md R268; 93_implementation_defined.md U13),
log 9. -/
def unspecifiedBytes (ctr : Nat) : List Byte :=
  (List.range Config.romMax).map (fun j => Config.unspecifiedRam ctr (Config.programBase + j))

/-- `RomOversize` (60_exceptions.md R268): RAM from 0x200 on is unspecified (U13) and what the reset
has put below stays; no cycle runs; `pc` keeps the value it had (R266), log 9. The record's `info` is
R268's min(L, 0xFFFF), not the 0 that R37 gives every cause but `AddressFault`: DESIGN CHOICE, log 23. -/
def State.raiseRomOversize (s : State) (len : Nat) : State :=
  { s.nextFree with
      mem := Memory.writeAll s.mem Config.programBase (unspecifiedBytes s.freeCtr) }.raise
    { cause := .romOversize, addr := 0x0200, word := none, info := BitVec.ofNat 16 (min len 0xFFFF) }

/-- `load(bytes)` and then `pc <- 0x0200`, `run <- running` (70_reset_and_hazards.md R301, R300 steps
(5) and (6)). -/
def State.load (s : State) (rom : List Byte) : State :=
  if rom.length ≤ Config.romMax then
    { s with mem := Memory.writeAll s.mem Config.programBase rom, pc := 0x0200, run := .running }
  else s.raiseRomOversize rom.length

/-- Cold reset: RAM zero but for the font, which is re-seeded (70_reset_and_hazards.md R300). -/
def State.coldReset (s : State) (rom : List Byte) : State := (s.clearFor []).load rom

/-- RAM cleared from 0x050 on, the font bytes left as they are (70_reset_and_hazards.md R302). -/
def Memory.keepFont (m : Memory) : Memory := m.filter (fun c => decide (c.1 < Config.fontEnd))

/-- Reload (70_reset_and_hazards.md R302). -/
def State.reload (s : State) (rom : List Byte) : State := (s.clearFor (Memory.keepFont s.mem)).load rom

/-- The reset port (10_state.md R52). -/
def State.resetWith (s : State) (kind : ResetKind) (rom : List Byte) : State :=
  match kind with
  | .cold => s.coldReset rom
  | .reload => s.reload rom

end Sys2Proof.Machine
end

