-- ==== Sys2Proof/Machine/Cycle.lean ====
section
/-! DEFINITION. The cycle, the engine's turn and the other agents' moves
(40_cycle_and_control_flow.md R120, R121, R128; 60_exceptions.md R270 to R273; 00_scope.md R9). -/

namespace Sys2Proof.Machine

/-- The debug port's view of a state in the cycle that fetched `w` (10_state.md R56; D29), log 10. -/
def State.snapshot (s : State) (w : Option Word) : DebugSnapshot :=
  { pc := s.pc, i := s.i, word := w, fields := w.map fields,
    dt := timerPeek s.dt s.now, st := timerPeek s.st s.now,
    v := s.v, stack := s.stack, disp := s.disp, run := s.run, phase := s.phase, fault := s.fault }

/-- Step 8 of the cycle: expose the snapshot when `DEBUG_MODE` is set (R120). `CYCLE_DELAY` has no
effect (D30). -/
def State.expose (s : State) (w : Option Word) : State :=
  if s.cfg.debugMode then { s with debugOut := s.snapshot w :: s.debugOut } else s

/-- Step 7: run the body of the row `w` selects, or `raise DecodeFault` (R120; 60_exceptions.md
R262). `pc` already holds `a + 2`. -/
def dispatch (w : Word) (s : State) : Result :=
  match decodeWord w with
  | .ok i => exec i s
  | .error _ => .next (s.raiseBody .decodeFault w 0)

/-- Steps 3 to 8: fetch at `pc`, advance `pc` by 2 mod 65536, dispatch, expose (R120). -/
def cycle (s : State) : Result :=
  match s.readWord s.pc.toNat with
  | .error e => .next ((s.raiseFetch e).expose none)
  | .ok w => mapNext (fun t => t.expose (some w)) (dispatch w (s.setPc (s.pc + 2)))

/-- A whole cycle: the interrupt event first, then the halt request, then the fetch (R120 steps 1
and 2; 60_exceptions.md R273). -/
def fetchTurn (s : State) : Result :=
  if s.abortPending then .next (s.setRun .aborted)
  else if s.haltPending then .next (s.setRun .halted)
  else cycle s

/-- The engine's turn. A halted, faulted or aborted engine has no step: its state stays as it is
(R121, R128; log 5). Configurations out of range are refused (U17; log 14). -/
def engineTurn (s : State) : Result :=
  match s.run with
  | .halted => .next s
  | .faulted => .next s
  | .aborted => .next s
  | .running =>
    if s.cfg.valid then
      match s.phase with
      | .fetch => fetchTurn s
      | .waitKey r => .next (s.waitTurn r)
    else .refused .configurationOutOfRange

/-- An event on the input port or a halt request reaches a running engine only: in a terminal state
it changes nothing (60_exceptions.md R271; D23; log 8). -/
def State.whileRunning (s t : State) : State := if s.run = .running then t else s

/-- One move of one agent (00_scope.md R9). -/
def deliver (m : Move) (s : State) : Result :=
  match m with
  | .engine => engineTurn s
  | .clock ms => .next { s with now := s.now + ms }
  | .key c => .next (s.whileRunning { s with keyq := s.keyq ++ [c] })
  | .interrupt => .next (s.whileRunning { s with abortPending := true })
  | .haltRequest => .next (s.whileRunning { s with haltPending := true })
  | .reset kind rom => .next (s.resetWith kind rom)
  | .configure c =>
    if s.run = .running then .refused .reconfiguredWhileRunning else .next { s with cfg := c }

/-- Position `k` of the free sequence is used up. -/
def Supply.next : Supply → Supply
  | .quiet => .quiet
  | .free k => .free (k + 1)

/-- The move that comes next (00_scope.md R9; log 4). -/
def State.nextMove (s : State) : Move :=
  match s.moves with
  | m :: _ => m
  | [] =>
    match s.supply with
    | .quiet => .engine
    | .free k => Config.freeMove k

/-- `s` with the move that comes next taken off. -/
def State.afterMove (s : State) : State :=
  { s with
    moves := s.moves.tail
    supply := if s.moves.isEmpty then s.supply.next else s.supply }

/-- Take the move that comes next. -/
def takeMove (s : State) : Result := deliver s.nextMove s.afterMove

/-- `s` about to fetch at `pc` with nothing pending and the engine's move before every other; `pc` goes
to the reset entry point when no word can be fetched at it, and a configuration the model refuses to
the default one. -/
def State.readyToFetch (s : State) : State :=
  { s with
    run := .running, phase := .fetch, abortPending := false, haltPending := false,
    moves := .engine :: s.moves,
    pc := if s.pc.toNat < 0xFFF then s.pc else 0x0200,
    cfg := if s.cfg.valid then s.cfg else Config.default }

/-- Bytes placed in RAM from outside the machine, as a load does (70_reset_and_hazards.md R301). -/
def State.placeBytes (s : State) (a : Nat) (bs : List Byte) : State :=
  { s with mem := Memory.writeAll s.mem a bs }

end Sys2Proof.Machine
end

