-- ==== Sys2Proof/Machine/Step.lean ====
section
/-! DEFINITION. One step: one move of one agent. -/

namespace Sys2Proof.Machine

/-- One step of the machine (00_scope.md R9; 40_cycle_and_control_flow.md R120). -/
def step (s : State) : Host.Outcome State Fault Refusal := takeMove s

/-- `s` with the word of an opcode-table row where `step` fetches next (log 16). -/
def State.withFetchWord (s : State) (nbits w : Nat) : State :=
  let r := s.readyToFetch
  r.placeBytes r.pc.toNat (bytesOfWord (tableWord nbits w))

end Sys2Proof.Machine
end

