-- ==== Sys2Proof/Safety.lean ====
section
/-! DEFINITION. The terms in which claims speak: the invariant of the machine, when the engine is
about to run a cycle, what a body sees, the write sets the spec gives, and runs with balanced calls. -/

namespace Sys2Proof

/-! ### Write sets -/

/-- The general registers an instruction may write (10_state.md R21). -/
def Instr.writesReg : Instr → Reg → Bool
  | .ldVxNn x _, r => r == x
  | .addVxNn x _, r => r == x
  | .ldVxVy x _, r => r == x
  | .orVxVy x _, r => r == x
  | .andVxVy x _, r => r == x
  | .xorVxVy x _, r => r == x
  | .addVxVy x _, r => r == x || r == vF
  | .subVxVy x _, r => r == x || r == vF
  | .shrVxVy x _, r => r == x || r == vF
  | .subnVxVy x _, r => r == x || r == vF
  | .shlVxVy x _, r => r == x || r == vF
  | .rndVxNn x _, r => r == x
  | .drwVxVyN _ _ _, r => r == vF
  | .ldVxDt x, r => r == x
  | .ldVxMem x, r => r.val ≤ x.val
  | .cls, _ => false
  | .ret, _ => false
  | .sys _, _ => false
  | .jp _, _ => false
  | .call _, _ => false
  | .seVxNn _ _, _ => false
  | .sneVxNn _ _, _ => false
  | .seVxVy _ _, _ => false
  | .sneVxVy _ _, _ => false
  | .ldINnn _, _ => false
  | .jpV0Nnn _, _ => false
  | .skpVx _, _ => false
  | .sknpVx _, _ => false
  | .ldVxK _, _ => false
  | .ldDtVx _, _ => false
  | .ldStVx _, _ => false
  | .addIVx _, _ => false
  | .ldFVx _, _ => false
  | .ldBVx _, _ => false
  | .ldMemVx _, _ => false
  | .brk, _ => false

/-- The fault an instruction's body can raise (60_exceptions.md R273). -/
def Instr.bodyFault : Instr → Option Machine.FaultCause
  | .ret => some .stackUnderflow
  | .call _ => some .stackOverflow
  | .drwVxVyN _ _ _ => some .addressFault
  | .ldBVx _ => some .addressFault
  | .ldMemVx _ => some .addressFault
  | .ldVxMem _ => some .addressFault
  | .cls => none
  | .sys _ => none
  | .jp _ => none
  | .seVxNn _ _ => none
  | .sneVxNn _ _ => none
  | .seVxVy _ _ => none
  | .ldVxNn _ _ => none
  | .addVxNn _ _ => none
  | .ldVxVy _ _ => none
  | .orVxVy _ _ => none
  | .andVxVy _ _ => none
  | .xorVxVy _ _ => none
  | .addVxVy _ _ => none
  | .subVxVy _ _ => none
  | .shrVxVy _ _ => none
  | .subnVxVy _ _ => none
  | .shlVxVy _ _ => none
  | .sneVxVy _ _ => none
  | .ldINnn _ => none
  | .jpV0Nnn _ => none
  | .rndVxNn _ _ => none
  | .skpVx _ => none
  | .sknpVx _ => none
  | .ldVxDt _ => none
  | .ldVxK _ => none
  | .ldDtVx _ => none
  | .ldStVx _ => none
  | .addIVx _ => none
  | .ldFVx _ => none
  | .brk => none

/-- The bytes of RAM a transfer at `I` touches: `n` for `Dxyn`, 3 for `Fx33`, `x + 1` for `Fx55` and
`Fx65`, none for every other instruction (20_memory.md R61). -/
def Instr.transferSize : Instr → Option Nat
  | .drwVxVyN _ _ n => some n.toNat
  | .ldBVx _ => some 3
  | .ldMemVx x => some (x.val + 1)
  | .ldVxMem x => some (x.val + 1)
  | .ret => none
  | .call _ => none
  | .cls => none
  | .sys _ => none
  | .jp _ => none
  | .seVxNn _ _ => none
  | .sneVxNn _ _ => none
  | .seVxVy _ _ => none
  | .ldVxNn _ _ => none
  | .addVxNn _ _ => none
  | .ldVxVy _ _ => none
  | .orVxVy _ _ => none
  | .andVxVy _ _ => none
  | .xorVxVy _ _ => none
  | .addVxVy _ _ => none
  | .subVxVy _ _ => none
  | .shrVxVy _ _ => none
  | .subnVxVy _ _ => none
  | .shlVxVy _ _ => none
  | .sneVxVy _ _ => none
  | .ldINnn _ => none
  | .jpV0Nnn _ => none
  | .rndVxNn _ _ => none
  | .skpVx _ => none
  | .sknpVx _ => none
  | .ldVxDt _ => none
  | .ldVxK _ => none
  | .ldDtVx _ => none
  | .ldStVx _ => none
  | .addIVx _ => none
  | .ldFVx _ => none
  | .brk => none

end Sys2Proof

namespace Sys2Proof.Machine

/-! ### The invariant -/

/-- RAM keeps its canonical form. -/
abbrev State.ramCanonical (s : State) : Prop := Memory.wf s.mem = true

/-- The fault record is valid exactly in `faulted` (10_state.md R37; 60_exceptions.md R266). -/
abbrev State.recordIffFaulted (s : State) : Prop := s.fault.isSome = true ↔ s.run = .faulted

/-- No fault record has the cause that nothing raises (60_exceptions.md R263). -/
abbrev State.noRegisterIndex (s : State) : Prop :=
  ∀ f, s.fault = some f → f.cause ≠ .registerIndex

/-- A running engine's stack has at most `STACK_CAPACITY` entries (10_state.md R31). -/
abbrev State.stackWithinCapacity (s : State) : Prop :=
  s.run = .running → s.stack.length ≤ s.cfg.stackCapacity

/-- No timer was set in the future: `Now()` never decreases (46_timers.md R221, R222). -/
abbrev State.timersNotAhead (s : State) : Prop :=
  (∀ r, s.dt.ref = some r → r ≤ s.now) ∧ ∀ r, s.st.ref = some r → r ≤ s.now

/-- An engine in a key wait runs or was aborted there: only the interrupt event cuts a wait short
(45_keypad.md R208; 60_exceptions.md R272). -/
abbrev State.waitRunsOrAborted (s : State) : Prop :=
  ∀ r, s.phase = .waitKey r → s.run = .running ∨ s.run = .aborted

/-- The invariant that every step keeps. -/
structure State.Inv (s : State) : Prop where
  ram    : s.ramCanonical
  record : s.recordIffFaulted
  cause  : s.noRegisterIndex
  stack  : s.stackWithinCapacity
  timers : s.timersNotAhead
  wait   : s.waitRunsOrAborted

/-- "no reachable `pc` exceeds 0x10FE" (10_state.md R28), with the return addresses that make it so. -/
structure State.PcBounded (s : State) : Prop where
  pc    : s.pc.toNat ≤ 0x10FE
  stack : ∀ t ∈ s.stack, t.toNat ≤ 0x1000

/-! ### When a cycle runs, and what its body sees -/

/-- The next move is the engine's. -/
abbrev State.engineMoves (s : State) : Prop := s.nextMove = .engine

/-- The next move is not a reset. -/
abbrev State.noReset (s : State) : Prop := ∀ kind rom, s.nextMove ≠ .reset kind rom

/-- The next move does not come from the configuration port. -/
abbrev State.noConfigure (s : State) : Prop := ∀ c, s.nextMove ≠ .configure c

/-- The engine is about to run a whole cycle: it has the move, it runs, in phase FETCH, under a valid
configuration, with no event pending (40_cycle_and_control_flow.md R120). -/
structure State.CycleReady (s : State) : Prop where
  moves : s.engineMoves
  run   : s.run = .running
  phase : s.phase = .fetch
  cfg   : s.cfg.valid
  abort : s.abortPending = false
  halt  : s.haltPending = false

/-- What the body of an instruction starts from: the move taken, `pc` advanced by 2
(40_cycle_and_control_flow.md R120 step 6). -/
def State.inBody (s : State) : State := { s.afterMove with pc := s.pc + 2 }

/-- A word can be fetched at `pc`, and it is `w`: the byte at the lower address is its high byte
(20_memory.md R67). -/
def State.fetches (s : State) (w : Word) : Prop :=
  s.pc.toNat ≤ 0xFFE ∧
    s.readByte s.pc.toNat = w.extractLsb' 8 8 ∧ s.readByte (s.pc.toNat + 1) = w.extractLsb' 0 8

/-- `t` is `s` in `faulted` with this fault record, and nothing else changed (60_exceptions.md R266). -/
def State.FaultedFrom (s t : State) (f : FaultRecord) : Prop :=
  t = { s with run := .faulted, fault := some f }

/-- Every byte of RAM reads in `t` as it reads in `s`. -/
def State.SameRam (s t : State) : Prop := ∀ a, t.readByte a = s.readByte a

/-- Every byte of RAM outside the `k` bytes at `a` reads in `t` as it reads in `s`. -/
def State.SameRamOutside (s t : State) (a k : Nat) : Prop :=
  ∀ c, ¬ (a ≤ c ∧ c < a + k) → t.readByte c = s.readByte c

/-- Some buffered press has the code in `V[x]`, all 8 bits compared (45_keypad.md R203). -/
def State.keyBuffered (s : State) (x : Reg) : Prop := ∃ c ∈ s.keyq, c.toNat = (s.reg x).toNat

/-- The condition under which one of the six skip instructions skips in `s` (10_state.md R26;
41_skips.md R141 to R144; 45_keypad.md R206, R207). -/
def State.skips (s : State) : Instr → Prop
  | .seVxNn x nn => s.reg x = nn
  | .sneVxNn x nn => s.reg x ≠ nn
  | .seVxVy x y => s.reg x = s.reg y
  | .sneVxVy x y => s.reg x ≠ s.reg y
  | .skpVx x => s.keyBuffered x
  | .sknpVx x => ¬ s.keyBuffered x
  | .cls => False
  | .ret => False
  | .sys _ => False
  | .jp _ => False
  | .call _ => False
  | .ldVxNn _ _ => False
  | .addVxNn _ _ => False
  | .ldVxVy _ _ => False
  | .orVxVy _ _ => False
  | .andVxVy _ _ => False
  | .xorVxVy _ _ => False
  | .addVxVy _ _ => False
  | .subVxVy _ _ => False
  | .shrVxVy _ _ => False
  | .subnVxVy _ _ => False
  | .shlVxVy _ _ => False
  | .ldINnn _ => False
  | .jpV0Nnn _ => False
  | .rndVxNn _ _ => False
  | .drwVxVyN _ _ _ => False
  | .ldVxDt _ => False
  | .ldVxK _ => False
  | .ldDtVx _ => False
  | .ldStVx _ => False
  | .addIVx _ => False
  | .ldFVx _ => False
  | .ldBVx _ => False
  | .ldMemVx _ => False
  | .ldVxMem _ => False
  | .brk => False

/-! ### Runs and balanced calls -/

/-- The machine runs from the first state to the second, without a reset, and the cycles of that run
execute these instructions, in this order. Between them come steps that are no cycle: other agents'
moves, turns in a key wait. -/
inductive Executes : List Instr → State → State → Prop where
  | done (s : State) : Executes [] s s
  | cycle {s t u : State} {is : List Instr} (w : Word) (i : Instr) (hs : s.CycleReady)
      (hw : s.fetches w) (hd : decodeWord w = .ok i) (ht : step s = .next t)
      (h : Executes is t u) : Executes (i :: is) s u
  | other {s t u : State} {is : List Instr} (hs : ¬ s.CycleReady) (hr : s.noReset)
      (ht : step s = .next t) (h : Executes is t u) : Executes is s u

/-- A sequence of executed instructions in which every return belongs to a call before it. -/
inductive Balanced : List Instr → Prop where
  | nil : Balanced []
  | plain (i : Instr) (is : List Instr) (hc : ∀ nnn, i ≠ .call nnn) (hr : i ≠ .ret)
      (h : Balanced is) : Balanced (i :: is)
  | call (nnn : Addr12) (body is : List Instr) (hb : Balanced body) (h : Balanced is) :
      Balanced (.call nnn :: (body ++ .ret :: is))

/-- Every pixel of the sprite `rows` drawn at (`x0`, `y0`): set exactly where an unclipped row byte
has a 1 bit, bit 7 leftmost (44_display.md R180, R182). -/
def spriteBit (rows : List Byte) (x0 y0 px py : Nat) : Bool :=
  decide (px ≤ 63 ∧ py ≤ 31 ∧ x0 ≤ px ∧ px ≤ x0 + 7 ∧ y0 ≤ py ∧ py < y0 + rows.length) &&
    (rows.getD (py - y0) 0).getLsbD (7 - (px - x0))

end Sys2Proof.Machine
end

