-- ==== Sys2Proof/Certificates/Slice0/Obligations.lean ====
section
/-! DEFINITION. The statements for the provers. In the statements about `exec` the state is the one a
body starts from: `pc` already holds `a + 2` (40_cycle_and_control_flow.md R120). -/

open Sys2Proof Sys2Proof.Machine

/-! ### Encoding -/

/-- Decoding the bytes of a well-formed instruction gives it back, whatever bytes follow. -/
def Obligations.DecodeOfEncodeGivesTheInstruction : Prop :=
  ∀ (i : Instr) (rest : List Byte), i.wf = true → decode (encodeBytes i ++ rest) = .ok (i, rest)

/-- A word that decodes is the word of the instruction it decodes to, which is well-formed. -/
def Obligations.EncodeOfDecodeGivesTheWord : Prop :=
  ∀ (w : Word) (i : Instr), decodeWord w = .ok i → encode i = w ∧ i.wf = true

/-- The decoder gives row `k`'s instruction exactly for the words whose masked bits are row `k`'s
(30_encoding.md R99). Exactness of the patterns is the spec's decision D10. -/
def Obligations.DecodeFollowsTheOpcodeTable : Prop :=
  ∀ (w : Word) (k : Nat), selectsRow w k ↔ ∃ i, decodeWord w = .ok i ∧ i.row = k

/-- The rejected words are the five classes (a) to (e) of 30_encoding.md R100. -/
def Obligations.IllegalWordsAreTheFiveClasses : Prop :=
  ∀ w : Word, (∃ e, decodeWord w = .error e) ↔
    (w.toNat / 4096 = 0x5 ∧ w.toNat % 16 ≠ 0) ∨
    (w.toNat / 4096 = 0x9 ∧ w.toNat % 16 ≠ 0) ∨
    (w.toNat / 4096 = 0x8 ∧ w.toNat % 16 ∈ [0x8, 0x9, 0xA, 0xB, 0xC, 0xD, 0xF]) ∨
    (w.toNat / 4096 = 0xE ∧ w.toNat % 256 ∉ [0x9E, 0xA1]) ∨
    (w.toNat / 4096 = 0xF ∧
      w.toNat % 256 ∉ [0x07, 0x0A, 0x15, 0x18, 0x1E, 0x29, 0x33, 0x55, 0x65] ∧ w ≠ 0xFFFF#16)

/-- Words of the spec's own decode table (95_test_vectors.md 2.1, E1 to E15). -/
def Obligations.WordsOfTheSpecDecode : Prop :=
  decodeWord 0xD123#16 = .ok (.drwVxVyN 1 2 3) ∧
  decodeWord 0x8AB4#16 = .ok (.addVxVy 10 11) ∧
  decodeWord 0xF565#16 = .ok (.ldVxMem 5) ∧
  decodeWord 0x00E0#16 = .ok .cls ∧
  decodeWord 0x00E1#16 = .ok (.sys 0x0E1) ∧
  decodeWord 0xFFFF#16 = .ok .brk ∧
  decodeWord 0xFF07#16 = .ok (.ldVxDt 15) ∧
  decodeWord 0xBFFF#16 = .ok (.jpV0Nnn 0xFFF) ∧
  decodeWord 0xF0FF#16 = .error .familyF ∧
  decodeWord 0x5121#16 = .error .family5

/-! ### The cycle -/

/-- A step runs the instruction the bytes at `pc` decode to, with `pc` advanced by 2 first; then the
debug port sees the cycle (40_cycle_and_control_flow.md R120 steps 3 to 8; byte order: D1). That it sees
the cycle of a body that faults too is log 10 (DEDUCED, beside the spec's decision D29). -/
def Obligations.StepRunsTheFetchedInstruction : Prop :=
  ∀ (s : State) (i : Instr), s.CycleReady → s.pc.toNat ≤ 0xFFE →
    decode [s.readByte s.pc.toNat, s.readByte (s.pc.toNat + 1)] = .ok (i, []) →
    step s = mapNext
      (fun t => t.expose
        (some (wordOfBytes (s.readByte s.pc.toNat) (s.readByte (s.pc.toNat + 1)))))
      (exec i s.inBody)

/-- A fetched word that selects no row raises `DecodeFault` (code 2): the record holds the
instruction's address and the word, `pc` is `a + 2`, nothing else changes (60_exceptions.md R262; the
record and the codes are the spec's decisions D20, D21). Then the debug port sees the cycle: that it does
after a fault is log 10 (DEDUCED, beside the spec's decision D29). -/
def Obligations.WordOfNoRowFaults : Prop :=
  causeCode .decodeFault = 2 ∧
  ∀ (s : State) (w : Word), s.CycleReady → s.fetches w → (∀ k, ¬ selectsRow w k) →
    ∃ t, s.inBody.FaultedFrom t { cause := .decodeFault, addr := s.pc, word := some w, info := 0 } ∧
      step s = .next (t.expose (some w))

/-- A fetch at 0x0FFF or above raises `AddressFault`: no word in the record, `pc` unchanged
(60_exceptions.md R264; the fault itself is the spec's decision D3, its record D20). Then the debug port
sees the cycle, without a word: log 10 (DEDUCED, beside the spec's decision D29). -/
def Obligations.FetchOutsideRamFaults : Prop :=
  ∀ s : State, s.CycleReady → 0xFFF ≤ s.pc.toNat →
    ∃ t, s.afterMove.FaultedFrom t
        { cause := .addressFault, addr := s.pc, word := none,
          info := if 0xFFF < s.pc.toNat then s.pc else 0x1000 } ∧
      step s = .next (t.expose none)

/-- At the start of a cycle the interrupt event comes first, then the halt request, and the
instruction at `pc` does not run (60_exceptions.md R271 to R273; the spec's decision D23). The same of a
key wait is OnlyKeyInterruptOrResetEndAWait. -/
def Obligations.InterruptComesBeforeHaltRequest : Prop :=
  ∀ s : State, s.engineMoves → s.run = .running → s.phase = .fetch → s.cfg.valid →
    (s.abortPending = true → step s = .next { s.afterMove with run := .aborted }) ∧
    (s.abortPending = false → s.haltPending = true →
      step s = .next { s.afterMove with run := .halted })

/-- `pc` after an instruction that ran without a fault, by instruction (10_state.md R26; the address
of the instruction is `s.pc`). -/
def Obligations.PcAfterEachInstruction : Prop :=
  ∀ (s t : State) (w : Word) (i : Instr), s.CycleReady → s.fetches w → decodeWord w = .ok i →
    step s = .next t → t.run ≠ .faulted →
    match i with
    | .jp nnn => t.pc.toNat = nnn.toNat
    | .call nnn => t.pc.toNat = nnn.toNat ∧ t.stack = (s.pc + 2) :: s.stack
    | .jpV0Nnn nnn => t.pc.toNat = nnn.toNat + (s.reg 0).toNat
    | .ret => s.stack = t.pc :: t.stack
    | _ => (s.skips i → t.pc = s.pc + 4) ∧ (¬ s.skips i → t.pc = s.pc + 2)

/-- A skip goes to `a + 4` whatever stands at `a + 2`, in RAM or not: the skipped word is not fetched,
not decoded and cannot fault (41_skips.md R140). -/
def Obligations.SkippedWordIsNeverRun : Prop :=
  ∀ (s : State) (w : Word) (i : Instr), s.CycleReady → s.fetches w → decodeWord w = .ok i →
    s.skips i →
    ∃ t, step s = .next t ∧ t.pc = s.pc + 4 ∧ t.run = .running ∧ t.fault = s.fault ∧
      (∀ r, t.reg r = s.reg r) ∧ s.SameRam t ∧
      t.stack = s.stack ∧ t.disp = s.disp ∧ t.dt = s.dt ∧ t.st = s.st

/-- A halted, faulted or aborted engine: time passes, a reset resets, the configuration port sets the
configuration and nothing else (10_state.md R57; accepting it here is the model's choice, log 14), and
every other move leaves the state as it is (40_cycle_and_control_flow.md R121, R128; logs 5 and 8). -/
def Obligations.TerminalStatesAreFinal : Prop :=
  ∀ s : State, s.run ≠ .running →
    (∀ ms, s.nextMove = .clock ms → step s = .next { s.afterMove with now := s.now + ms }) ∧
    (∀ c, s.nextMove = .configure c → step s = .next { s.afterMove with cfg := c }) ∧
    (s.noReset → s.noConfigure → (∀ ms, s.nextMove ≠ .clock ms) → step s = .next s.afterMove)

/-- The only ways the run state changes (40_cycle_and_control_flow.md R121): a reset; from running to
halted by `0nnn`, `FFFF` or a pending halt request; to aborted by a pending interrupt event; to
faulted with a record that names the address of the cycle. -/
def Obligations.RunStateChangesOnlyByTheListedCauses : Prop :=
  ∀ s t : State, step s = .next t → t.run ≠ s.run →
    (∃ kind rom, s.nextMove = .reset kind rom) ∨
    (s.run = .running ∧ s.engineMoves ∧
      ((t.run = .aborted ∧ s.abortPending = true) ∨
       (t.run = .halted ∧ s.phase = .fetch ∧ s.abortPending = false ∧
         (s.haltPending = true ∨
          ∃ w, s.fetches w ∧ ((∃ nnn, decodeWord w = .ok (.sys nnn)) ∨ decodeWord w = .ok .brk))) ∨
       (t.run = .faulted ∧ s.phase = .fetch ∧ s.abortPending = false ∧ s.haltPending = false ∧
         ∃ f, t.fault = some f ∧ f.addr = s.pc)))

/-- Every step answers a next state, except the two refusals of a configuration (logs 6 and 14). -/
def Obligations.EveryStepCompletesUnlessRefused : Prop :=
  ∀ s : State, (∃ t, step s = .next t) ∨
    (s.engineMoves ∧ s.run = .running ∧ ¬ s.cfg.valid ∧
      step s = .refused .configurationOutOfRange) ∨
    (s.run = .running ∧ (∃ c, s.nextMove = .configure c) ∧
      step s = .refused .reconfiguredWhileRunning)

/-- Every step keeps the invariant: canonical RAM, a record exactly in `faulted`, never cause 3, the
stack within its capacity, no timer ahead of the clock, a wait only while running or aborted
(10_state.md R31, R37; the spec's decisions D4, D16, D20). -/
def Obligations.StepKeepsMachineSound : Prop :=
  ∀ s t : State, s.Inv → step s = .next t → t.Inv

/-- "no reachable `pc` exceeds 0x10FE" (10_state.md R28, derived there) as an invariant of every
step. -/
def Obligations.StepKeepsPcWithinReach : Prop :=
  ∀ s t : State, s.PcBounded → step s = .next t → t.PcBounded

/-- The state after reset meets both. -/
def Obligations.ResetIsSoundAndWithinReach : Prop := State.reset.Inv ∧ State.reset.PcBounded

/-! ### Events and resets -/

/-- What the input source, the clock and the host's halt request do to a running machine
(45_keypad.md R201; 60_exceptions.md R271, R272; 46_timers.md R221; the latches are the spec's decision
D23). The move may stand in the list or come from the free sequence, log 4. -/
def Obligations.EventsOnlyReachTheirOwnState : Prop :=
  ∀ s : State, s.run = .running →
    (∀ c, s.nextMove = .key c → step s = .next { s.afterMove with keyq := s.keyq ++ [c] }) ∧
    (s.nextMove = .interrupt → step s = .next { s.afterMove with abortPending := true }) ∧
    (s.nextMove = .haltRequest → step s = .next { s.afterMove with haltPending := true }) ∧
    (∀ ms, s.nextMove = .clock ms → step s = .next { s.afterMove with now := s.now + ms })

/-- What reset leaves where the source gives the value (10_state.md R50, first half; the font bytes are
not claimed). -/
def Obligations.ResetValuesOfTheSource : Prop :=
  State.reset.pc = 0x0200 ∧ State.reset.run = .running ∧ State.reset.stack = [] ∧
  (∀ px py, Display.pixel State.reset.disp px py = false) ∧
  (∀ a, 0x050 ≤ a → State.reset.readByte a = 0)

/-- A cold reset loads the ROM at 0x200, seeds the font, zeroes the rest, and brings every other part
of the engine to its reset value (70_reset_and_hazards.md R300, R301; the values of `V`, `I`, the
timers, the phase, the buffer and the pending bits are the spec's decision D5, log 2). That what the
ports were given stays is log 11, that the clock stays log 13, both the model's choice; the last three
fields are the model's own. -/
def Obligations.ColdResetLoadsTheRom : Prop :=
  ∀ (s : State) (rom : List Byte), rom.length ≤ 3584 →
    s.nextMove = .reset .cold rom →
    ∃ t, step s = .next t ∧
      (∀ j, j < rom.length → t.readByte (0x200 + j) = rom.getD j 0) ∧
      (∀ a, a < 0x050 → t.readByte a = Config.font.getD a 0) ∧
      (∀ a, 0x050 ≤ a → (a < 0x200 ∨ 0x200 + rom.length ≤ a) → t.readByte a = 0) ∧
      t = { State.reset with
            mem := t.mem, cfg := s.cfg, now := s.now, frames := s.frames, debugOut := s.debugOut,
            moves := s.afterMove.moves, supply := s.afterMove.supply, freeCtr := s.freeCtr }

/-- A reload does the same but leaves the 80 font bytes as they are (70_reset_and_hazards.md R302; the
spec's decision D6; the reset values are D5, log 2). As in a cold reset, what the ports were given stays
by log 11 and the clock by log 13, the model's choice. -/
def Obligations.ReloadLeavesTheFontBytes : Prop :=
  ∀ (s : State) (rom : List Byte), s.ramCanonical → rom.length ≤ 3584 →
    s.nextMove = .reset .reload rom →
    ∃ t, step s = .next t ∧
      (∀ j, j < rom.length → t.readByte (0x200 + j) = rom.getD j 0) ∧
      (∀ a, a < 0x050 → t.readByte a = s.readByte a) ∧
      (∀ a, 0x050 ≤ a → (a < 0x200 ∨ 0x200 + rom.length ≤ a) → t.readByte a = 0) ∧
      t = { State.reset with
            mem := t.mem, cfg := s.cfg, now := s.now, frames := s.frames, debugOut := s.debugOut,
            moves := s.afterMove.moves, supply := s.afterMove.supply, freeCtr := s.freeCtr }

/-- While no program has written below 0x050, a reload is a cold reset (70_reset_and_hazards.md R302;
the spec's decision D6). A ROM above 3584 bytes is not shut out: that both leave the same free values in
RAM there is log 9 (one counter, `freeCtr`), the model's choice. -/
def Obligations.ReloadIsColdResetWithIntactFont : Prop :=
  ∀ (s : State) (rom : List Byte), s.ramCanonical →
    (∀ a, a < 0x050 → s.readByte a = ramDefault a) → s.reload rom = s.coldReset rom

/-- A ROM longer than 3584 bytes: `RomOversize`, RAM below 0x200 as the reset leaves it, and the
engine's next turn runs no cycle (60_exceptions.md R268; the spec's decision D7; that only RAM from 0x200
on is unspecified is U13). The record's `info` is R268's and not R37's 0, the model's choice where the two
rules contradict each other: log 23. `pc` and RAM from 0x200 on are log 9 and not claimed. -/
def Obligations.OversizeRomFaultsAndRunsNoCycle : Prop :=
  ∀ (s : State) (kind : ResetKind) (rom : List Byte), 3584 < rom.length →
    s.nextMove = .reset kind rom →
    ∃ t, step s = .next t ∧ t.run = .faulted ∧
      t.fault = some { cause := .romOversize, addr := 0x0200, word := none,
                       info := BitVec.ofNat 16 (min rom.length 0xFFFF) } ∧
      (kind = .cold → ∀ a, a < 0x200 → t.readByte a = Config.font.getD a 0) ∧
      (kind = .reload → s.ramCanonical →
        (∀ a, a < 0x050 → t.readByte a = s.readByte a) ∧
        (∀ a, 0x050 ≤ a → a < 0x200 → t.readByte a = 0)) ∧
      (t.engineMoves → step t = .next t.afterMove)

/-! ### Literals -/

/-- `6xnn`: `V[x]` is `nn`, nothing else changes; and a step over it leaves `pc` advanced by exactly 2
(42_load_immediate.md R151). -/
def Obligations.LoadLiteralIntoRegister : Prop :=
  ∀ (x : Reg) (nn : Byte) (s : State),
    (∃ t, exec (.ldVxNn x nn) s = .next t ∧ t.reg x = nn ∧ (∀ r, r ≠ x → t.reg r = s.reg r) ∧
      t = { s with v := t.v } ∧ s.SameRam t) ∧
    (s.CycleReady → s.fetches (encode (.ldVxNn x nn)) →
      ∃ t, step s = .next t ∧ t.reg x = nn ∧ t.pc = s.pc + 2)

/-- `7xnn`: the sum mod 256, and no flag (42_load_immediate.md R152). -/
def Obligations.AddLiteralWrapsWithoutFlag : Prop :=
  ∀ (x : Reg) (nn : Byte) (s : State), ∃ t, exec (.addVxNn x nn) s = .next t ∧
    (t.reg x).toNat = ((s.reg x).toNat + nn.toNat) % 256 ∧ (∀ r, r ≠ x → t.reg r = s.reg r) ∧
    t = { s with v := t.v } ∧ s.SameRam t

/-- `Cxnn`: `0xFF AND nn`, that is exactly `nn` (42_load_immediate.md R154). -/
def Obligations.RandomIsTheLiteralItself : Prop :=
  ∀ (x : Reg) (nn : Byte) (s : State), ∃ t, exec (.rndVxNn x nn) s = .next t ∧ t.reg x = nn ∧
    (∀ r, r ≠ x → t.reg r = s.reg r) ∧ t = { s with v := t.v } ∧ s.SameRam t

/-! ### Register-register ALU -/

/-- `8xy0` (43_alu.md R161). -/
def Obligations.MoveCopiesTheSource : Prop :=
  ∀ (x y : Reg) (s : State), ∃ t, exec (.ldVxVy x y) s = .next t ∧ t.reg x = s.reg y ∧
    (∀ r, r ≠ x → t.reg r = s.reg r) ∧ t = { s with v := t.v } ∧ s.SameRam t

/-- `8xy1`, `8xy2`, `8xy3`: bit by bit, and `VF` is no flag here (43_alu.md R162 to R164; that `VF`
stays is the spec's decision D9). -/
def Obligations.LogicWorksOnEachBitWithoutFlag : Prop :=
  ∀ (x y : Reg) (s : State),
    (∃ t, exec (.orVxVy x y) s = .next t ∧
      (∀ k, (t.reg x).getLsbD k = ((s.reg x).getLsbD k || (s.reg y).getLsbD k)) ∧
      (∀ r, r ≠ x → t.reg r = s.reg r) ∧ t = { s with v := t.v } ∧ s.SameRam t) ∧
    (∃ t, exec (.andVxVy x y) s = .next t ∧
      (∀ k, (t.reg x).getLsbD k = ((s.reg x).getLsbD k && (s.reg y).getLsbD k)) ∧
      (∀ r, r ≠ x → t.reg r = s.reg r) ∧ t = { s with v := t.v } ∧ s.SameRam t) ∧
    (∃ t, exec (.xorVxVy x y) s = .next t ∧
      (∀ k, (t.reg x).getLsbD k = ((s.reg x).getLsbD k ^^ (s.reg y).getLsbD k)) ∧
      (∀ r, r ≠ x → t.reg r = s.reg r) ∧ t = { s with v := t.v } ∧ s.SameRam t)

/-- `8xy4`: the truncated sum in `V[x]`, then the carry in `VF`; with `x` = 15 the flag stays
(43_alu.md R165). -/
def Obligations.AddWritesSumThenCarry : Prop :=
  ∀ (x y : Reg) (s : State), ∃ t, exec (.addVxVy x y) s = .next t ∧
    (t.reg 15).toNat = (if 255 < (s.reg x).toNat + (s.reg y).toNat then 1 else 0) ∧
    (x ≠ 15 → (t.reg x).toNat = ((s.reg x).toNat + (s.reg y).toNat) % 256) ∧
    (∀ r, r ≠ x → r ≠ 15 → t.reg r = s.reg r) ∧ t = { s with v := t.v } ∧ s.SameRam t

/-- `8xy5` and `8xy7`: the wrapped difference in `V[x]`, then NOT borrow in `VF`
(43_alu.md R166, R168). -/
def Obligations.SubtractWritesDifferenceThenNotBorrow : Prop :=
  ∀ (x y : Reg) (s : State),
    (∃ t, exec (.subVxVy x y) s = .next t ∧
      (t.reg 15).toNat = (if (s.reg y).toNat ≤ (s.reg x).toNat then 1 else 0) ∧
      (x ≠ 15 → ((t.reg x).toNat : Int) = ((s.reg x).toNat - (s.reg y).toNat : Int) % 256) ∧
      (∀ r, r ≠ x → r ≠ 15 → t.reg r = s.reg r) ∧ t = { s with v := t.v } ∧ s.SameRam t) ∧
    (∃ t, exec (.subnVxVy x y) s = .next t ∧
      (t.reg 15).toNat = (if (s.reg x).toNat ≤ (s.reg y).toNat then 1 else 0) ∧
      (x ≠ 15 → ((t.reg x).toNat : Int) = ((s.reg y).toNat - (s.reg x).toNat : Int) % 256) ∧
      (∀ r, r ≠ x → r ≠ 15 → t.reg r = s.reg r) ∧ t = { s with v := t.v } ∧ s.SameRam t)

/-- `8xy6` and `8xyE`: `V[y]` shifted by one into `V[x]`, then the bit shifted out in `VF`; `V[y]` is
not shifted (43_alu.md R167, R169; the order of the writes is the spec's decision D11). -/
def Obligations.ShiftsTakeTheirSourceFromY : Prop :=
  ∀ (x y : Reg) (s : State),
    (∃ t, exec (.shrVxVy x y) s = .next t ∧ (t.reg 15).toNat = (s.reg y).toNat % 2 ∧
      (x ≠ 15 → (t.reg x).toNat = (s.reg y).toNat / 2) ∧
      (∀ r, r ≠ x → r ≠ 15 → t.reg r = s.reg r) ∧ t = { s with v := t.v } ∧ s.SameRam t) ∧
    (∃ t, exec (.shlVxVy x y) s = .next t ∧ (t.reg 15).toNat = (s.reg y).toNat / 128 ∧
      (x ≠ 15 → (t.reg x).toNat = (s.reg y).toNat * 2 % 256) ∧
      (∀ r, r ≠ x → r ≠ 15 → t.reg r = s.reg r) ∧ t = { s with v := t.v } ∧ s.SameRam t)

/-! ### Control transfer -/

/-- `3xnn`, `4xnn`, `5xy0`, `9xy0`: `pc + 2` more exactly when the condition holds, and nothing else
changes (41_skips.md R141 to R144). -/
def Obligations.SkipsMovePcOnlyWhenTrue : Prop :=
  ∀ (x y : Reg) (nn : Byte) (s : State),
    exec (.seVxNn x nn) s = .next { s with pc := if s.reg x = nn then s.pc + 2 else s.pc } ∧
    exec (.sneVxNn x nn) s = .next { s with pc := if s.reg x = nn then s.pc else s.pc + 2 } ∧
    exec (.seVxVy x y) s = .next { s with pc := if s.reg x = s.reg y then s.pc + 2 else s.pc } ∧
    exec (.sneVxVy x y) s = .next { s with pc := if s.reg x = s.reg y then s.pc else s.pc + 2 }

/-- `1nnn` and `Bnnn`: the target, with no reduction mod 4096 (40_cycle_and_control_flow.md R124,
R126). -/
def Obligations.JumpsOverwritePc : Prop :=
  ∀ (nnn : Addr12) (s : State),
    (∃ t, exec (.jp nnn) s = .next t ∧ t.pc.toNat = nnn.toNat ∧ t = { s with pc := t.pc } ∧
      s.SameRam t) ∧
    (∃ t, exec (.jpV0Nnn nnn) s = .next t ∧ t.pc.toNat = nnn.toNat + (s.reg 0).toNat ∧
      t = { s with pc := t.pc } ∧ s.SameRam t)

/-- `2nnn`: the advanced `pc` is pushed and `pc` is the target; at full capacity `StackOverflow`
(cause 5) with the stack and `pc` unchanged (40_cycle_and_control_flow.md R125; the capacity, the record
and the code are the spec's decisions D4, D20, D21). -/
def Obligations.CallPushesTheNextAddress : Prop :=
  causeCode .stackOverflow = 5 ∧
  ∀ (nnn : Addr12) (s : State),
    (s.stack.length ≠ s.cfg.stackCapacity →
      ∃ t, exec (.call nnn) s = .next t ∧ t.stack = s.pc :: s.stack ∧ t.pc.toNat = nnn.toNat ∧
        t = { s with stack := t.stack, pc := t.pc } ∧ s.SameRam t) ∧
    (s.stack.length = s.cfg.stackCapacity →
      ∃ t, exec (.call nnn) s = .next t ∧
        s.FaultedFrom t { cause := .stackOverflow, addr := s.pc - 2,
                          word := some (encode (.call nnn)), info := 0 })

/-- `00EE`: the top of the stack goes to `pc`; on an empty stack `StackUnderflow` (cause 1) with `pc`
unchanged (40_cycle_and_control_flow.md R122; the record and the code are the spec's decisions D20,
D21). -/
def Obligations.ReturnPopsIntoPc : Prop :=
  causeCode .stackUnderflow = 1 ∧
  ∀ s : State,
    (∀ top rest, s.stack = top :: rest →
      ∃ t, exec .ret s = .next t ∧ t.pc = top ∧ t.stack = rest ∧
        t = { s with stack := t.stack, pc := t.pc } ∧ s.SameRam t) ∧
    (s.stack = [] →
      ∃ t, exec .ret s = .next t ∧
        s.FaultedFrom t { cause := .stackUnderflow, addr := s.pc - 2, word := some 0x00EE,
                          info := 0 })

/-- A run that executes a call, any balanced sequence of instructions and the matching return, without a
reset: if the engine still runs at its end, `pc` is the address after the call and the stack is as it
was, at any nesting depth (40_cycle_and_control_flow.md R122; 95_test_vectors.md X6). Other agents' moves
and key waits may come between the cycles. -/
def Obligations.NestedCallsReturnToTheirCaller : Prop :=
  ∀ (nnn : Addr12) (body : List Instr) (s t : State), Balanced body →
    Executes (.call nnn :: (body ++ [.ret])) s t → t.run = .running →
    t.pc = s.pc + 2 ∧ t.stack = s.stack

/-- `0nnn` and `FFFF` halt and change nothing else (40_cycle_and_control_flow.md R123, R127). For
`nnn` = 0x0E0 and 0x0EE, which R123 leaves out and no word decodes to, that is the model's choice,
log 21. -/
def Obligations.SystemCallAndBreakpointHalt : Prop :=
  ∀ (nnn : Addr12) (s : State),
    exec (.sys nnn) s = .next { s with run := .halted } ∧
    exec .brk s = .next { s with run := .halted }

/-! ### Display -/

/-- `00E0`: every cell is 0, `VF` and RAM are untouched, one frame is pushed, of zeros
(44_display.md R181; a frame at every execution is the spec's decision D24, keeping it log 11). -/
def Obligations.ClearScreenPushesAnEmptyFrame : Prop :=
  ∀ s : State, ∃ t, exec .cls s = .next t ∧
    (∀ n, Display.cell t.disp n = false) ∧ t.frames = t.disp :: s.frames ∧
    (∀ r, t.reg r = s.reg r) ∧ t = { s with disp := t.disp, frames := t.frames } ∧ s.SameRam t

/-- `Blit` as a whole: with the origin reduced mod 64 and mod 32, each pixel is XORed with the clipped
sprite's bit there, and the result is true exactly when some such bit lies over a set pixel
(44_display.md R182). -/
def Obligations.BlitXorsTheClippedSprite : Prop :=
  ∀ (d : Display) (x0 y0 : Byte) (rows : List Byte),
    (∀ px py, px < 64 → py < 32 →
      Display.pixel (blit d x0 y0 rows).disp px py =
        (Display.pixel d px py ^^ spriteBit rows (x0.toNat % 64) (y0.toNat % 32) px py)) ∧
    ((blit d x0 y0 rows).collision = true ↔
      ∃ px py, spriteBit rows (x0.toNat % 64) (y0.toNat % 32) px py = true ∧
        Display.pixel d px py = true)

/-- Drawing the same sprite twice restores the display, and the second draw collides exactly where the
first left a pixel set (44_display.md R185 (a)). -/
def Obligations.BlitTwiceRestoresTheDisplay : Prop :=
  ∀ (d : Display) (x0 y0 : Byte) (rows : List Byte),
    (blit (blit d x0 y0 rows).disp x0 y0 rows).disp = d ∧
    ((blit (blit d x0 y0 rows).disp x0 y0 rows).collision = true ↔
      ∃ px py, spriteBit rows (x0.toNat % 64) (y0.toNat % 32) px py = true ∧
        Display.pixel (blit d x0 y0 rows).disp px py = true)

/-- `Dxyn` with its bytes in RAM, or with `n` = 0: the sprite of the `n` bytes at `I` is XORed in at
(`V[x]`, `V[y]`), `VF` is the collision, a frame is pushed, nothing else changes
(44_display.md R183; that clipped rows are read too and `n` = 0 reads none is the spec's decision D13,
the frame D24). -/
def Obligations.DrawXorsTheSpriteAtI : Prop :=
  ∀ (x y : Reg) (n : Nibble) (s : State), (n.toNat = 0 ∨ s.i.toNat + n.toNat ≤ 0x1000) →
    ∃ t rows, exec (.drwVxVyN x y n) s = .next t ∧
      rows = (List.range n.toNat).map (fun j => s.readByte (s.i.toNat + j)) ∧
      (∀ px py, px < 64 → py < 32 →
        Display.pixel t.disp px py =
          (Display.pixel s.disp px py ^^
            spriteBit rows ((s.reg x).toNat % 64) ((s.reg y).toNat % 32) px py)) ∧
      (t.reg 15 = 0 ∨ t.reg 15 = 1) ∧
      (t.reg 15 = 1 ↔
        ∃ px py, spriteBit rows ((s.reg x).toNat % 64) ((s.reg y).toNat % 32) px py = true ∧
          Display.pixel s.disp px py = true) ∧
      (∀ r, r ≠ 15 → t.reg r = s.reg r) ∧ t.frames = t.disp :: s.frames ∧
      t = { s with v := t.v, disp := t.disp, frames := t.frames } ∧ s.SameRam t

/-! ### Keypad -/

/-- `Ex9E` and `ExA1`: the whole buffer is drained and the skip is taken exactly when a buffered press
has (has not) the 8-bit code in `V[x]` (45_keypad.md R203, R206, R207; the spec's decisions D14,
D15). -/
def Obligations.KeySkipsDrainTheBuffer : Prop :=
  ∀ (x : Reg) (s : State),
    (s.keyBuffered x →
      exec (.skpVx x) s = .next { s with keyq := [], pc := s.pc + 2 } ∧
      exec (.sknpVx x) s = .next { s with keyq := [] }) ∧
    (¬ s.keyBuffered x →
      exec (.skpVx x) s = .next { s with keyq := [] } ∧
      exec (.sknpVx x) s = .next { s with keyq := [], pc := s.pc + 2 })

/-- `Fx0A` in two engine steps: the body enters the wait and changes nothing else; the completion
removes the oldest press and loads it (45_keypad.md R204, R208; the spec's decisions D15, D16). -/
def Obligations.KeyWaitLoadsTheOldestPress : Prop :=
  ∀ (x : Reg) (s : State),
    ∃ u, exec (.ldVxK x) s = .next u ∧ u = { s with phase := .waitKey x } ∧
      ∀ c rest, s.engineMoves → s.run = .running → s.cfg.valid → s.abortPending = false →
        s.keyq = c :: rest →
        ∃ t, step u = .next t ∧ (t.reg x).toNat = c.toNat ∧ (∀ r, r ≠ x → t.reg r = s.reg r) ∧
          t.keyq = rest ∧ t.phase = .fetch ∧
          t = { s.afterMove with v := t.v, keyq := rest, phase := .fetch } ∧
          s.SameRam t

/-- A key wait. With nothing buffered the engine's turn aborts when the interrupt event is pending (T94)
and else leaves the state as it is (log 5); with a key buffered and the event pending it takes one of the
two steps that R208 enables, which one is the free value of log 7 (completion without the event is
KeyWaitLoadsTheOldestPress). And no other move but a reset ends a wait (45_keypad.md R208;
60_exceptions.md R271, R272; the spec's decisions D16, D23). -/
def Obligations.OnlyKeyInterruptOrResetEndAWait : Prop :=
  ∀ (s : State) (r : Reg), s.run = .running → s.phase = .waitKey r →
    (s.engineMoves → s.cfg.valid →
      (s.keyq = [] → s.abortPending = true → step s = .next { s.afterMove with run := .aborted }) ∧
      (s.keyq = [] → s.abortPending = false → step s = .next s.afterMove) ∧
      (∀ c rest, s.keyq = c :: rest → s.abortPending = true →
        step s = .next { s.afterMove with run := .aborted, freeCtr := s.freeCtr + 1 } ∨
        ∃ t, step s = .next t ∧ (t.reg r).toNat = c.toNat ∧ (∀ q, q ≠ r → t.reg q = s.reg q) ∧
          t = { s.afterMove with
                v := t.v, keyq := rest, phase := .fetch, freeCtr := s.freeCtr + 1 })) ∧
    ∀ t, step s = .next t →
      (t.run = .running ∧ t.phase = .waitKey r ∧ t.pc = s.pc ∧ ∀ q, t.reg q = s.reg q) ∨
      (s.engineMoves ∧ s.abortPending = true ∧ t.run = .aborted ∧ t.phase = .waitKey r ∧
        t.pc = s.pc ∧ ∀ q, t.reg q = s.reg q) ∨
      (s.engineMoves ∧ s.keyq ≠ [] ∧ t.run = .running ∧ t.phase = .fetch ∧ t.pc = s.pc) ∨
      (∃ kind rom, s.nextMove = .reset kind rom)

/-! ### Timers -/

/-- `Fx07`: 0 when inactive, else the start value less the elapsed whole ticks of 16 ms divided by
`TIME_SCALE`, clamped to 0; the reference is cleared exactly when the value is exhausted
(46_timers.md R224, R228; the spec's decision D18). -/
def Obligations.DelayReadIsTheDecayedValue : Prop :=
  ∀ (x : Reg) (s : State), 1 ≤ s.cfg.timeScale →
    ∃ t, exec (.ldVxDt x) s = .next t ∧ (∀ r, r ≠ x → t.reg r = s.reg r) ∧
      t = { s with v := t.v, dt := t.dt } ∧ s.SameRam t ∧ t.dt.start = s.dt.start ∧
      (s.dt.ref = none → t.reg x = 0 ∧ t.dt.ref = none) ∧
      (∀ r, s.dt.ref = some r →
        (t.reg x).toNat = s.dt.start.toNat - (s.now - r) / 16 / s.cfg.timeScale ∧
        (t.dt.ref = none ↔ s.dt.start.toNat ≤ (s.now - r) / 16 / s.cfg.timeScale) ∧
        (t.dt.ref = none ∨ t.dt.ref = some r))

/-- `Fx15` and `Fx18`: the timer is started with the value and the time now (46_timers.md R229,
R230). -/
def Obligations.TimersAreSetToNow : Prop :=
  ∀ (x : Reg) (s : State),
    exec (.ldDtVx x) s = .next { s with dt := { start := s.reg x, ref := some s.now } } ∧
    exec (.ldStVx x) s = .next { s with st := { start := s.reg x, ref := some s.now } }

/-- Timer decay for `TIME_SCALE` = 1: set to `v`, a read after `d` ms gives `v` less `d div 16` while
that is not below 0, and once exhausted every later read gives 0 (46_timers.md R231). -/
def Obligations.TimerDecaysByWholeTicks : Prop :=
  ∀ (x y : Reg) (d : Nat) (s u : State), s.cfg.timeScale = 1 → exec (.ldDtVx x) s = .next u →
    ∃ t, exec (.ldVxDt y) { u with now := u.now + d } = .next t ∧
      (d / 16 ≤ (s.reg x).toNat → (t.reg y).toNat = (s.reg x).toNat - d / 16) ∧
      ((s.reg x).toNat ≤ d / 16 → t.reg y = 0 ∧
        ∀ d' z, ∃ t', exec (.ldVxDt z) { t with now := t.now + d' } = .next t' ∧ t'.reg z = 0)

/-- Two reads of the delay timer with no `Fx15` between: the second is not above the first, whatever
time passes and whatever `TIME_SCALE` is (46_timers.md R228). -/
def Obligations.DelayReadsNeverIncrease : Prop :=
  ∀ (x y : Reg) (d : Nat) (s u t : State), exec (.ldVxDt x) s = .next u →
    exec (.ldVxDt y) { u with now := u.now + d } = .next t →
    (t.reg y).toNat ≤ (u.reg x).toNat

/-- `Peek`: the start value less the elapsed whole ticks, no time scale. With `TIME_SCALE` = 1 it is
what the mutating read returns, above 1 it is smaller or equal (46_timers.md R225). -/
def Obligations.PeekAgainstMutatingRead : Prop :=
  ∀ (T : Timer) (now scale : Nat), 1 ≤ scale →
    (T.ref = none → timerPeek T now = 0) ∧
    (∀ r, T.ref = some r → (timerPeek T now).toNat = T.start.toNat - (now - r) / 16) ∧
    timerPeek T now = (timerReadMut 1 T now).1 ∧
    (timerPeek T now).toNat ≤ (timerReadMut scale T now).1.toNat

/-- The sound timer has no effect on any other state: two states that differ in it only step to states
that differ in it only, while the debug port, which shows it, is off (46_timers.md R226). -/
def Obligations.SoundTimerReachesNothing : Prop :=
  ∀ (s t : State) (T : Timer), s.cfg.debugMode = false → step s = .next t →
    ∃ T', step { s with st := T } = .next { t with st := T' }

/-- `DEBUG_MODE` and `CYCLE_DELAY` have no effect on any state but the debug port's own record
(10_state.md R56; 60_exceptions.md R284; the spec's decision D30). -/
def Obligations.DebugModeAndDelayReachNothing : Prop :=
  ∀ (s t : State) (delay : Nat) (mode : Bool),
    s.noConfigure → step s = .next t →
    ∃ out, step { s with cfg := { s.cfg with cycleDelay := delay, debugMode := mode } } =
      .next { t with cfg := { t.cfg with cycleDelay := delay, debugMode := mode }, debugOut := out }

/-! ### Index register, loads and stores -/

/-- `Fx1E`: the sum mod 65536, no flag (47_index_memory.md R241; the wrap is the spec's decision D8). -/
def Obligations.AddToIndexWrapsWithoutFlag : Prop :=
  ∀ (x : Reg) (s : State), ∃ t, exec (.addIVx x) s = .next t ∧
    t.i.toNat = (s.i.toNat + (s.reg x).toNat) % 65536 ∧ t = { s with i := t.i } ∧ s.SameRam t

/-- `Annn`: `I` is `nnn` zero-extended (42_load_immediate.md R153). `Fx29`: `I` is five times the low
nibble of `V[x]` (47_index_memory.md R242). -/
def Obligations.IndexIsLoadedWithAnAddress : Prop :=
  (∀ (nnn : Addr12) (s : State), ∃ t, exec (.ldINnn nnn) s = .next t ∧ t.i.toNat = nnn.toNat ∧
    t = { s with i := t.i } ∧ s.SameRam t) ∧
  (∀ (x : Reg) (s : State), ∃ t, exec (.ldFVx x) s = .next t ∧
    t.i.toNat = 5 * ((s.reg x).toNat % 16) ∧ t = { s with i := t.i } ∧ s.SameRam t)

/-- `Fx33`: hundreds, tens and ones at `I`, `I + 1`, `I + 2`, every other byte as before, `I`
unchanged; `AddressFault` with nothing written when `I` is above 0xFFD (47_index_memory.md R243; the
fault, its record and that nothing is written are the spec's decisions D3, D20, D22). -/
def Obligations.DecimalDigitsAreStoredAtI : Prop :=
  ∀ (x : Reg) (s : State), s.ramCanonical →
    (s.i.toNat ≤ 0xFFD →
      ∃ t, exec (.ldBVx x) s = .next t ∧
        (t.readByte s.baseAddr).toNat = (s.reg x).toNat / 100 ∧
        (t.readByte (s.baseAddr + 1)).toNat = (s.reg x).toNat / 10 % 10 ∧
        (t.readByte (s.baseAddr + 2)).toNat = (s.reg x).toNat % 10 ∧
        s.SameRamOutside t s.baseAddr 3 ∧ t = { s with mem := t.mem }) ∧
    (0xFFD < s.i.toNat →
      ∃ t, exec (.ldBVx x) s = .next t ∧
        s.FaultedFrom t { cause := .addressFault, addr := s.pc - 2, word := some (encode (.ldBVx x)),
                          info := if 0x1000 ≤ s.i.toNat then s.i else 0x1000 })

/-- `Fx55`: `V[0]` to `V[x]` at `I` on, every other byte as before, then `I` advances by `x + 1`;
`AddressFault` with nothing written when `I + x` is above 0xFFF (47_index_memory.md R244; the fault, its
record and that nothing is written are the spec's decisions D3, D20, D22). -/
def Obligations.BlockStoreAdvancesIndex : Prop :=
  ∀ (x : Reg) (s : State), s.ramCanonical →
    (s.i.toNat + x.val ≤ 0xFFF →
      ∃ t, exec (.ldMemVx x) s = .next t ∧
        (∀ r : Reg, r ≤ x → t.readByte (s.baseAddr + r.val) = s.reg r) ∧
        s.SameRamOutside t s.baseAddr (x.val + 1) ∧
        t.i.toNat = (s.i.toNat + x.val + 1) % 65536 ∧ (∀ r, t.reg r = s.reg r) ∧
        t = { s with mem := t.mem, i := t.i }) ∧
    (0xFFF < s.i.toNat + x.val →
      ∃ t, exec (.ldMemVx x) s = .next t ∧
        s.FaultedFrom t { cause := .addressFault, addr := s.pc - 2,
                          word := some (encode (.ldMemVx x)),
                          info := if 0x1000 ≤ s.i.toNat then s.i else 0x1000 })

/-- `Fx65`: `V[0]` to `V[x]` from `I` on, the registers above `x` and RAM as before, then `I` advances
by `x + 1`; `AddressFault` with nothing loaded when `I + x` is above 0xFFF (47_index_memory.md R245; the
fault, its record and that nothing is loaded are the spec's decisions D3, D20, D22). -/
def Obligations.BlockLoadAdvancesIndex : Prop :=
  ∀ (x : Reg) (s : State),
    (s.i.toNat + x.val ≤ 0xFFF →
      ∃ t, exec (.ldVxMem x) s = .next t ∧
        (∀ r : Reg, r ≤ x → t.reg r = s.readByte (s.i.toNat + r.val)) ∧
        (∀ r : Reg, x < r → t.reg r = s.reg r) ∧
        t.i.toNat = (s.i.toNat + x.val + 1) % 65536 ∧ t = { s with v := t.v, i := t.i } ∧
        s.SameRam t) ∧
    (0xFFF < s.i.toNat + x.val →
      ∃ t, exec (.ldVxMem x) s = .next t ∧
        s.FaultedFrom t { cause := .addressFault, addr := s.pc - 2,
                          word := some (encode (.ldVxMem x)),
                          info := if 0x1000 ≤ s.i.toNat then s.i else 0x1000 })

/-- A transfer that would leave RAM, of any of the four kinds, raises `AddressFault` with the lowest
address outside, and changes nothing else (47_index_memory.md R246; 44_display.md R183; the spec's
decision D22). -/
def Obligations.TransferOutsideRamChangesNothing : Prop :=
  ∀ (i : Instr) (k : Nat) (s : State), i.transferSize = some k → k ≠ 0 →
    0xFFF < s.i.toNat + k - 1 →
    ∃ t, exec i s = .next t ∧
      s.FaultedFrom t { cause := .addressFault, addr := s.pc - 2, word := some (encode i),
                        info := BitVec.ofNat 16 (max s.i.toNat 0x1000) }

/-! ### Whole-machine rules -/

/-- No instruction writes a general register outside its write set (10_state.md R21). -/
def Obligations.RegistersOutsideTheWriteSetStay : Prop :=
  ∀ (i : Instr) (s t : State), exec i s = .next t →
    ∀ r, i.writesReg r = false → t.reg r = s.reg r

/-- Which instructions reach which store: RAM is written by `Fx33` and `Fx55` only, the stack by
`2nnn` and `00EE` only, the display by `00E0` and `Dxyn` only (20_memory.md R61); `I`, the timers and
the buffer by the instructions of 10_state.md R29, R34, R39 only; the configuration, the clock and
the pending bits by none. -/
def Obligations.EachStoreHasItsOwnWriters : Prop :=
  ∀ (i : Instr) (s t : State), exec i s = .next t →
    ((∀ x, i ≠ .ldBVx x) → (∀ x, i ≠ .ldMemVx x) → s.SameRam t) ∧
    ((∀ nnn, i ≠ .call nnn) → i ≠ .ret → t.stack = s.stack) ∧
    (i ≠ .cls → (∀ x y n, i ≠ .drwVxVyN x y n) → t.disp = s.disp ∧ t.frames = s.frames) ∧
    ((∀ nnn, i ≠ .ldINnn nnn) → (∀ x, i ≠ .addIVx x) → (∀ x, i ≠ .ldFVx x) →
      (∀ x, i ≠ .ldMemVx x) → (∀ x, i ≠ .ldVxMem x) → t.i = s.i) ∧
    ((∀ x, i ≠ .ldDtVx x) → (∀ x, i ≠ .ldVxDt x) → t.dt = s.dt) ∧
    ((∀ x, i ≠ .ldStVx x) → t.st = s.st) ∧
    ((∀ x, i ≠ .skpVx x) → (∀ x, i ≠ .sknpVx x) → t.keyq = s.keyq) ∧
    ((∀ x, i ≠ .ldVxK x) → t.phase = s.phase) ∧
    t.cfg = s.cfg ∧ t.now = s.now ∧ t.abortPending = s.abortPending ∧
    t.haltPending = s.haltPending ∧ t.debugOut = s.debugOut

/-- Faults are precise: an instruction whose body raises a fault raises the one cause its rule gives,
records its own address and word, and changes nothing but `run` and the record
(60_exceptions.md R266, R273; the spec's decisions D20, D23). -/
def Obligations.BodyFaultsArePrecise : Prop :=
  ∀ (i : Instr) (s t : State), exec i s = .next t → s.run = .running → t.run = .faulted →
    ∃ f, t.fault = some f ∧ i.bodyFault = some f.cause ∧ f.addr = s.pc - 2 ∧
      f.word = some (encode i) ∧ s.FaultedFrom t f
end

