-- ==== Sys2Proof/Laws/State.lean ====
section
/-! SUPPORT. What each named update of the state does to each field: one lemma per field per update,
true by rfl, and the same for the two readers `reg` and `readByte`. -/

namespace Sys2Proof.Machine

variable (s : State)

/-! ### setReg -/

@[simp] theorem setReg_v (x : Reg) (b : Byte) : (s.setReg x b).v = s.v.set x b := rfl
@[simp] theorem setReg_pc (x : Reg) (b : Byte) : (s.setReg x b).pc = s.pc := rfl
@[simp] theorem setReg_i (x : Reg) (b : Byte) : (s.setReg x b).i = s.i := rfl
@[simp] theorem setReg_stack (x : Reg) (b : Byte) : (s.setReg x b).stack = s.stack := rfl
@[simp] theorem setReg_mem (x : Reg) (b : Byte) : (s.setReg x b).mem = s.mem := rfl
@[simp] theorem setReg_disp (x : Reg) (b : Byte) : (s.setReg x b).disp = s.disp := rfl
@[simp] theorem setReg_dt (x : Reg) (b : Byte) : (s.setReg x b).dt = s.dt := rfl
@[simp] theorem setReg_st (x : Reg) (b : Byte) : (s.setReg x b).st = s.st := rfl
@[simp] theorem setReg_run (x : Reg) (b : Byte) : (s.setReg x b).run = s.run := rfl
@[simp] theorem setReg_phase (x : Reg) (b : Byte) : (s.setReg x b).phase = s.phase := rfl
@[simp] theorem setReg_fault (x : Reg) (b : Byte) : (s.setReg x b).fault = s.fault := rfl
@[simp] theorem setReg_keyq (x : Reg) (b : Byte) : (s.setReg x b).keyq = s.keyq := rfl
@[simp] theorem setReg_abortPending (x : Reg) (b : Byte) : (s.setReg x b).abortPending = s.abortPending := rfl
@[simp] theorem setReg_haltPending (x : Reg) (b : Byte) : (s.setReg x b).haltPending = s.haltPending := rfl
@[simp] theorem setReg_cfg (x : Reg) (b : Byte) : (s.setReg x b).cfg = s.cfg := rfl
@[simp] theorem setReg_now (x : Reg) (b : Byte) : (s.setReg x b).now = s.now := rfl
@[simp] theorem setReg_frames (x : Reg) (b : Byte) : (s.setReg x b).frames = s.frames := rfl
@[simp] theorem setReg_debugOut (x : Reg) (b : Byte) : (s.setReg x b).debugOut = s.debugOut := rfl
@[simp] theorem setReg_moves (x : Reg) (b : Byte) : (s.setReg x b).moves = s.moves := rfl
@[simp] theorem setReg_supply (x : Reg) (b : Byte) : (s.setReg x b).supply = s.supply := rfl
@[simp] theorem setReg_freeCtr (x : Reg) (b : Byte) : (s.setReg x b).freeCtr = s.freeCtr := rfl
@[simp] theorem setReg_readByte (x : Reg) (b : Byte) (a : Nat) : (s.setReg x b).readByte a = s.readByte a := rfl

/-! ### setPc -/

@[simp] theorem setPc_v (t : Word) : (s.setPc t).v = s.v := rfl
@[simp] theorem setPc_pc (t : Word) : (s.setPc t).pc = t := rfl
@[simp] theorem setPc_i (t : Word) : (s.setPc t).i = s.i := rfl
@[simp] theorem setPc_stack (t : Word) : (s.setPc t).stack = s.stack := rfl
@[simp] theorem setPc_mem (t : Word) : (s.setPc t).mem = s.mem := rfl
@[simp] theorem setPc_disp (t : Word) : (s.setPc t).disp = s.disp := rfl
@[simp] theorem setPc_dt (t : Word) : (s.setPc t).dt = s.dt := rfl
@[simp] theorem setPc_st (t : Word) : (s.setPc t).st = s.st := rfl
@[simp] theorem setPc_run (t : Word) : (s.setPc t).run = s.run := rfl
@[simp] theorem setPc_phase (t : Word) : (s.setPc t).phase = s.phase := rfl
@[simp] theorem setPc_fault (t : Word) : (s.setPc t).fault = s.fault := rfl
@[simp] theorem setPc_keyq (t : Word) : (s.setPc t).keyq = s.keyq := rfl
@[simp] theorem setPc_abortPending (t : Word) : (s.setPc t).abortPending = s.abortPending := rfl
@[simp] theorem setPc_haltPending (t : Word) : (s.setPc t).haltPending = s.haltPending := rfl
@[simp] theorem setPc_cfg (t : Word) : (s.setPc t).cfg = s.cfg := rfl
@[simp] theorem setPc_now (t : Word) : (s.setPc t).now = s.now := rfl
@[simp] theorem setPc_frames (t : Word) : (s.setPc t).frames = s.frames := rfl
@[simp] theorem setPc_debugOut (t : Word) : (s.setPc t).debugOut = s.debugOut := rfl
@[simp] theorem setPc_moves (t : Word) : (s.setPc t).moves = s.moves := rfl
@[simp] theorem setPc_supply (t : Word) : (s.setPc t).supply = s.supply := rfl
@[simp] theorem setPc_freeCtr (t : Word) : (s.setPc t).freeCtr = s.freeCtr := rfl
@[simp] theorem setPc_reg (t : Word) (y : Reg) : (s.setPc t).reg y = s.reg y := rfl
@[simp] theorem setPc_readByte (t : Word) (a : Nat) : (s.setPc t).readByte a = s.readByte a := rfl

/-! ### setI -/

@[simp] theorem setI_v (t : Word) : (s.setI t).v = s.v := rfl
@[simp] theorem setI_pc (t : Word) : (s.setI t).pc = s.pc := rfl
@[simp] theorem setI_i (t : Word) : (s.setI t).i = t := rfl
@[simp] theorem setI_stack (t : Word) : (s.setI t).stack = s.stack := rfl
@[simp] theorem setI_mem (t : Word) : (s.setI t).mem = s.mem := rfl
@[simp] theorem setI_disp (t : Word) : (s.setI t).disp = s.disp := rfl
@[simp] theorem setI_dt (t : Word) : (s.setI t).dt = s.dt := rfl
@[simp] theorem setI_st (t : Word) : (s.setI t).st = s.st := rfl
@[simp] theorem setI_run (t : Word) : (s.setI t).run = s.run := rfl
@[simp] theorem setI_phase (t : Word) : (s.setI t).phase = s.phase := rfl
@[simp] theorem setI_fault (t : Word) : (s.setI t).fault = s.fault := rfl
@[simp] theorem setI_keyq (t : Word) : (s.setI t).keyq = s.keyq := rfl
@[simp] theorem setI_abortPending (t : Word) : (s.setI t).abortPending = s.abortPending := rfl
@[simp] theorem setI_haltPending (t : Word) : (s.setI t).haltPending = s.haltPending := rfl
@[simp] theorem setI_cfg (t : Word) : (s.setI t).cfg = s.cfg := rfl
@[simp] theorem setI_now (t : Word) : (s.setI t).now = s.now := rfl
@[simp] theorem setI_frames (t : Word) : (s.setI t).frames = s.frames := rfl
@[simp] theorem setI_debugOut (t : Word) : (s.setI t).debugOut = s.debugOut := rfl
@[simp] theorem setI_moves (t : Word) : (s.setI t).moves = s.moves := rfl
@[simp] theorem setI_supply (t : Word) : (s.setI t).supply = s.supply := rfl
@[simp] theorem setI_freeCtr (t : Word) : (s.setI t).freeCtr = s.freeCtr := rfl
@[simp] theorem setI_reg (t : Word) (y : Reg) : (s.setI t).reg y = s.reg y := rfl
@[simp] theorem setI_readByte (t : Word) (a : Nat) : (s.setI t).readByte a = s.readByte a := rfl

/-! ### setRun -/

@[simp] theorem setRun_v (r : RunState) : (s.setRun r).v = s.v := rfl
@[simp] theorem setRun_pc (r : RunState) : (s.setRun r).pc = s.pc := rfl
@[simp] theorem setRun_i (r : RunState) : (s.setRun r).i = s.i := rfl
@[simp] theorem setRun_stack (r : RunState) : (s.setRun r).stack = s.stack := rfl
@[simp] theorem setRun_mem (r : RunState) : (s.setRun r).mem = s.mem := rfl
@[simp] theorem setRun_disp (r : RunState) : (s.setRun r).disp = s.disp := rfl
@[simp] theorem setRun_dt (r : RunState) : (s.setRun r).dt = s.dt := rfl
@[simp] theorem setRun_st (r : RunState) : (s.setRun r).st = s.st := rfl
@[simp] theorem setRun_run (r : RunState) : (s.setRun r).run = r := rfl
@[simp] theorem setRun_phase (r : RunState) : (s.setRun r).phase = s.phase := rfl
@[simp] theorem setRun_fault (r : RunState) : (s.setRun r).fault = s.fault := rfl
@[simp] theorem setRun_keyq (r : RunState) : (s.setRun r).keyq = s.keyq := rfl
@[simp] theorem setRun_abortPending (r : RunState) : (s.setRun r).abortPending = s.abortPending := rfl
@[simp] theorem setRun_haltPending (r : RunState) : (s.setRun r).haltPending = s.haltPending := rfl
@[simp] theorem setRun_cfg (r : RunState) : (s.setRun r).cfg = s.cfg := rfl
@[simp] theorem setRun_now (r : RunState) : (s.setRun r).now = s.now := rfl
@[simp] theorem setRun_frames (r : RunState) : (s.setRun r).frames = s.frames := rfl
@[simp] theorem setRun_debugOut (r : RunState) : (s.setRun r).debugOut = s.debugOut := rfl
@[simp] theorem setRun_moves (r : RunState) : (s.setRun r).moves = s.moves := rfl
@[simp] theorem setRun_supply (r : RunState) : (s.setRun r).supply = s.supply := rfl
@[simp] theorem setRun_freeCtr (r : RunState) : (s.setRun r).freeCtr = s.freeCtr := rfl
@[simp] theorem setRun_reg (r : RunState) (y : Reg) : (s.setRun r).reg y = s.reg y := rfl
@[simp] theorem setRun_readByte (r : RunState) (a : Nat) : (s.setRun r).readByte a = s.readByte a := rfl

/-! ### setPhase -/

@[simp] theorem setPhase_v (p : Phase) : (s.setPhase p).v = s.v := rfl
@[simp] theorem setPhase_pc (p : Phase) : (s.setPhase p).pc = s.pc := rfl
@[simp] theorem setPhase_i (p : Phase) : (s.setPhase p).i = s.i := rfl
@[simp] theorem setPhase_stack (p : Phase) : (s.setPhase p).stack = s.stack := rfl
@[simp] theorem setPhase_mem (p : Phase) : (s.setPhase p).mem = s.mem := rfl
@[simp] theorem setPhase_disp (p : Phase) : (s.setPhase p).disp = s.disp := rfl
@[simp] theorem setPhase_dt (p : Phase) : (s.setPhase p).dt = s.dt := rfl
@[simp] theorem setPhase_st (p : Phase) : (s.setPhase p).st = s.st := rfl
@[simp] theorem setPhase_run (p : Phase) : (s.setPhase p).run = s.run := rfl
@[simp] theorem setPhase_phase (p : Phase) : (s.setPhase p).phase = p := rfl
@[simp] theorem setPhase_fault (p : Phase) : (s.setPhase p).fault = s.fault := rfl
@[simp] theorem setPhase_keyq (p : Phase) : (s.setPhase p).keyq = s.keyq := rfl
@[simp] theorem setPhase_abortPending (p : Phase) : (s.setPhase p).abortPending = s.abortPending := rfl
@[simp] theorem setPhase_haltPending (p : Phase) : (s.setPhase p).haltPending = s.haltPending := rfl
@[simp] theorem setPhase_cfg (p : Phase) : (s.setPhase p).cfg = s.cfg := rfl
@[simp] theorem setPhase_now (p : Phase) : (s.setPhase p).now = s.now := rfl
@[simp] theorem setPhase_frames (p : Phase) : (s.setPhase p).frames = s.frames := rfl
@[simp] theorem setPhase_debugOut (p : Phase) : (s.setPhase p).debugOut = s.debugOut := rfl
@[simp] theorem setPhase_moves (p : Phase) : (s.setPhase p).moves = s.moves := rfl
@[simp] theorem setPhase_supply (p : Phase) : (s.setPhase p).supply = s.supply := rfl
@[simp] theorem setPhase_freeCtr (p : Phase) : (s.setPhase p).freeCtr = s.freeCtr := rfl
@[simp] theorem setPhase_reg (p : Phase) (y : Reg) : (s.setPhase p).reg y = s.reg y := rfl
@[simp] theorem setPhase_readByte (p : Phase) (a : Nat) : (s.setPhase p).readByte a = s.readByte a := rfl

/-! ### setDisp -/

@[simp] theorem setDisp_v (d : Display) : (s.setDisp d).v = s.v := rfl
@[simp] theorem setDisp_pc (d : Display) : (s.setDisp d).pc = s.pc := rfl
@[simp] theorem setDisp_i (d : Display) : (s.setDisp d).i = s.i := rfl
@[simp] theorem setDisp_stack (d : Display) : (s.setDisp d).stack = s.stack := rfl
@[simp] theorem setDisp_mem (d : Display) : (s.setDisp d).mem = s.mem := rfl
@[simp] theorem setDisp_disp (d : Display) : (s.setDisp d).disp = d := rfl
@[simp] theorem setDisp_dt (d : Display) : (s.setDisp d).dt = s.dt := rfl
@[simp] theorem setDisp_st (d : Display) : (s.setDisp d).st = s.st := rfl
@[simp] theorem setDisp_run (d : Display) : (s.setDisp d).run = s.run := rfl
@[simp] theorem setDisp_phase (d : Display) : (s.setDisp d).phase = s.phase := rfl
@[simp] theorem setDisp_fault (d : Display) : (s.setDisp d).fault = s.fault := rfl
@[simp] theorem setDisp_keyq (d : Display) : (s.setDisp d).keyq = s.keyq := rfl
@[simp] theorem setDisp_abortPending (d : Display) : (s.setDisp d).abortPending = s.abortPending := rfl
@[simp] theorem setDisp_haltPending (d : Display) : (s.setDisp d).haltPending = s.haltPending := rfl
@[simp] theorem setDisp_cfg (d : Display) : (s.setDisp d).cfg = s.cfg := rfl
@[simp] theorem setDisp_now (d : Display) : (s.setDisp d).now = s.now := rfl
@[simp] theorem setDisp_frames (d : Display) : (s.setDisp d).frames = s.frames := rfl
@[simp] theorem setDisp_debugOut (d : Display) : (s.setDisp d).debugOut = s.debugOut := rfl
@[simp] theorem setDisp_moves (d : Display) : (s.setDisp d).moves = s.moves := rfl
@[simp] theorem setDisp_supply (d : Display) : (s.setDisp d).supply = s.supply := rfl
@[simp] theorem setDisp_freeCtr (d : Display) : (s.setDisp d).freeCtr = s.freeCtr := rfl
@[simp] theorem setDisp_reg (d : Display) (y : Reg) : (s.setDisp d).reg y = s.reg y := rfl
@[simp] theorem setDisp_readByte (d : Display) (a : Nat) : (s.setDisp d).readByte a = s.readByte a := rfl

/-! ### setDt -/

@[simp] theorem setDt_v (t : Timer) : (s.setDt t).v = s.v := rfl
@[simp] theorem setDt_pc (t : Timer) : (s.setDt t).pc = s.pc := rfl
@[simp] theorem setDt_i (t : Timer) : (s.setDt t).i = s.i := rfl
@[simp] theorem setDt_stack (t : Timer) : (s.setDt t).stack = s.stack := rfl
@[simp] theorem setDt_mem (t : Timer) : (s.setDt t).mem = s.mem := rfl
@[simp] theorem setDt_disp (t : Timer) : (s.setDt t).disp = s.disp := rfl
@[simp] theorem setDt_dt (t : Timer) : (s.setDt t).dt = t := rfl
@[simp] theorem setDt_st (t : Timer) : (s.setDt t).st = s.st := rfl
@[simp] theorem setDt_run (t : Timer) : (s.setDt t).run = s.run := rfl
@[simp] theorem setDt_phase (t : Timer) : (s.setDt t).phase = s.phase := rfl
@[simp] theorem setDt_fault (t : Timer) : (s.setDt t).fault = s.fault := rfl
@[simp] theorem setDt_keyq (t : Timer) : (s.setDt t).keyq = s.keyq := rfl
@[simp] theorem setDt_abortPending (t : Timer) : (s.setDt t).abortPending = s.abortPending := rfl
@[simp] theorem setDt_haltPending (t : Timer) : (s.setDt t).haltPending = s.haltPending := rfl
@[simp] theorem setDt_cfg (t : Timer) : (s.setDt t).cfg = s.cfg := rfl
@[simp] theorem setDt_now (t : Timer) : (s.setDt t).now = s.now := rfl
@[simp] theorem setDt_frames (t : Timer) : (s.setDt t).frames = s.frames := rfl
@[simp] theorem setDt_debugOut (t : Timer) : (s.setDt t).debugOut = s.debugOut := rfl
@[simp] theorem setDt_moves (t : Timer) : (s.setDt t).moves = s.moves := rfl
@[simp] theorem setDt_supply (t : Timer) : (s.setDt t).supply = s.supply := rfl
@[simp] theorem setDt_freeCtr (t : Timer) : (s.setDt t).freeCtr = s.freeCtr := rfl
@[simp] theorem setDt_reg (t : Timer) (y : Reg) : (s.setDt t).reg y = s.reg y := rfl
@[simp] theorem setDt_readByte (t : Timer) (a : Nat) : (s.setDt t).readByte a = s.readByte a := rfl

/-! ### setSt -/

@[simp] theorem setSt_v (t : Timer) : (s.setSt t).v = s.v := rfl
@[simp] theorem setSt_pc (t : Timer) : (s.setSt t).pc = s.pc := rfl
@[simp] theorem setSt_i (t : Timer) : (s.setSt t).i = s.i := rfl
@[simp] theorem setSt_stack (t : Timer) : (s.setSt t).stack = s.stack := rfl
@[simp] theorem setSt_mem (t : Timer) : (s.setSt t).mem = s.mem := rfl
@[simp] theorem setSt_disp (t : Timer) : (s.setSt t).disp = s.disp := rfl
@[simp] theorem setSt_dt (t : Timer) : (s.setSt t).dt = s.dt := rfl
@[simp] theorem setSt_st (t : Timer) : (s.setSt t).st = t := rfl
@[simp] theorem setSt_run (t : Timer) : (s.setSt t).run = s.run := rfl
@[simp] theorem setSt_phase (t : Timer) : (s.setSt t).phase = s.phase := rfl
@[simp] theorem setSt_fault (t : Timer) : (s.setSt t).fault = s.fault := rfl
@[simp] theorem setSt_keyq (t : Timer) : (s.setSt t).keyq = s.keyq := rfl
@[simp] theorem setSt_abortPending (t : Timer) : (s.setSt t).abortPending = s.abortPending := rfl
@[simp] theorem setSt_haltPending (t : Timer) : (s.setSt t).haltPending = s.haltPending := rfl
@[simp] theorem setSt_cfg (t : Timer) : (s.setSt t).cfg = s.cfg := rfl
@[simp] theorem setSt_now (t : Timer) : (s.setSt t).now = s.now := rfl
@[simp] theorem setSt_frames (t : Timer) : (s.setSt t).frames = s.frames := rfl
@[simp] theorem setSt_debugOut (t : Timer) : (s.setSt t).debugOut = s.debugOut := rfl
@[simp] theorem setSt_moves (t : Timer) : (s.setSt t).moves = s.moves := rfl
@[simp] theorem setSt_supply (t : Timer) : (s.setSt t).supply = s.supply := rfl
@[simp] theorem setSt_freeCtr (t : Timer) : (s.setSt t).freeCtr = s.freeCtr := rfl
@[simp] theorem setSt_reg (t : Timer) (y : Reg) : (s.setSt t).reg y = s.reg y := rfl
@[simp] theorem setSt_readByte (t : Timer) (a : Nat) : (s.setSt t).readByte a = s.readByte a := rfl

/-! ### setKeyq -/

@[simp] theorem setKeyq_v (q : List KeyCode) : (s.setKeyq q).v = s.v := rfl
@[simp] theorem setKeyq_pc (q : List KeyCode) : (s.setKeyq q).pc = s.pc := rfl
@[simp] theorem setKeyq_i (q : List KeyCode) : (s.setKeyq q).i = s.i := rfl
@[simp] theorem setKeyq_stack (q : List KeyCode) : (s.setKeyq q).stack = s.stack := rfl
@[simp] theorem setKeyq_mem (q : List KeyCode) : (s.setKeyq q).mem = s.mem := rfl
@[simp] theorem setKeyq_disp (q : List KeyCode) : (s.setKeyq q).disp = s.disp := rfl
@[simp] theorem setKeyq_dt (q : List KeyCode) : (s.setKeyq q).dt = s.dt := rfl
@[simp] theorem setKeyq_st (q : List KeyCode) : (s.setKeyq q).st = s.st := rfl
@[simp] theorem setKeyq_run (q : List KeyCode) : (s.setKeyq q).run = s.run := rfl
@[simp] theorem setKeyq_phase (q : List KeyCode) : (s.setKeyq q).phase = s.phase := rfl
@[simp] theorem setKeyq_fault (q : List KeyCode) : (s.setKeyq q).fault = s.fault := rfl
@[simp] theorem setKeyq_keyq (q : List KeyCode) : (s.setKeyq q).keyq = q := rfl
@[simp] theorem setKeyq_abortPending (q : List KeyCode) : (s.setKeyq q).abortPending = s.abortPending := rfl
@[simp] theorem setKeyq_haltPending (q : List KeyCode) : (s.setKeyq q).haltPending = s.haltPending := rfl
@[simp] theorem setKeyq_cfg (q : List KeyCode) : (s.setKeyq q).cfg = s.cfg := rfl
@[simp] theorem setKeyq_now (q : List KeyCode) : (s.setKeyq q).now = s.now := rfl
@[simp] theorem setKeyq_frames (q : List KeyCode) : (s.setKeyq q).frames = s.frames := rfl
@[simp] theorem setKeyq_debugOut (q : List KeyCode) : (s.setKeyq q).debugOut = s.debugOut := rfl
@[simp] theorem setKeyq_moves (q : List KeyCode) : (s.setKeyq q).moves = s.moves := rfl
@[simp] theorem setKeyq_supply (q : List KeyCode) : (s.setKeyq q).supply = s.supply := rfl
@[simp] theorem setKeyq_freeCtr (q : List KeyCode) : (s.setKeyq q).freeCtr = s.freeCtr := rfl
@[simp] theorem setKeyq_reg (q : List KeyCode) (y : Reg) : (s.setKeyq q).reg y = s.reg y := rfl
@[simp] theorem setKeyq_readByte (q : List KeyCode) (a : Nat) : (s.setKeyq q).readByte a = s.readByte a := rfl

/-! ### emitFrame -/

@[simp] theorem emitFrame_v : (s.emitFrame).v = s.v := rfl
@[simp] theorem emitFrame_pc : (s.emitFrame).pc = s.pc := rfl
@[simp] theorem emitFrame_i : (s.emitFrame).i = s.i := rfl
@[simp] theorem emitFrame_stack : (s.emitFrame).stack = s.stack := rfl
@[simp] theorem emitFrame_mem : (s.emitFrame).mem = s.mem := rfl
@[simp] theorem emitFrame_disp : (s.emitFrame).disp = s.disp := rfl
@[simp] theorem emitFrame_dt : (s.emitFrame).dt = s.dt := rfl
@[simp] theorem emitFrame_st : (s.emitFrame).st = s.st := rfl
@[simp] theorem emitFrame_run : (s.emitFrame).run = s.run := rfl
@[simp] theorem emitFrame_phase : (s.emitFrame).phase = s.phase := rfl
@[simp] theorem emitFrame_fault : (s.emitFrame).fault = s.fault := rfl
@[simp] theorem emitFrame_keyq : (s.emitFrame).keyq = s.keyq := rfl
@[simp] theorem emitFrame_abortPending : (s.emitFrame).abortPending = s.abortPending := rfl
@[simp] theorem emitFrame_haltPending : (s.emitFrame).haltPending = s.haltPending := rfl
@[simp] theorem emitFrame_cfg : (s.emitFrame).cfg = s.cfg := rfl
@[simp] theorem emitFrame_now : (s.emitFrame).now = s.now := rfl
@[simp] theorem emitFrame_frames : (s.emitFrame).frames = s.disp :: s.frames := rfl
@[simp] theorem emitFrame_debugOut : (s.emitFrame).debugOut = s.debugOut := rfl
@[simp] theorem emitFrame_moves : (s.emitFrame).moves = s.moves := rfl
@[simp] theorem emitFrame_supply : (s.emitFrame).supply = s.supply := rfl
@[simp] theorem emitFrame_freeCtr : (s.emitFrame).freeCtr = s.freeCtr := rfl
@[simp] theorem emitFrame_reg (y : Reg) : (s.emitFrame).reg y = s.reg y := rfl
@[simp] theorem emitFrame_readByte (a : Nat) : (s.emitFrame).readByte a = s.readByte a := rfl

/-! ### nextFree -/

@[simp] theorem nextFree_v : (s.nextFree).v = s.v := rfl
@[simp] theorem nextFree_pc : (s.nextFree).pc = s.pc := rfl
@[simp] theorem nextFree_i : (s.nextFree).i = s.i := rfl
@[simp] theorem nextFree_stack : (s.nextFree).stack = s.stack := rfl
@[simp] theorem nextFree_mem : (s.nextFree).mem = s.mem := rfl
@[simp] theorem nextFree_disp : (s.nextFree).disp = s.disp := rfl
@[simp] theorem nextFree_dt : (s.nextFree).dt = s.dt := rfl
@[simp] theorem nextFree_st : (s.nextFree).st = s.st := rfl
@[simp] theorem nextFree_run : (s.nextFree).run = s.run := rfl
@[simp] theorem nextFree_phase : (s.nextFree).phase = s.phase := rfl
@[simp] theorem nextFree_fault : (s.nextFree).fault = s.fault := rfl
@[simp] theorem nextFree_keyq : (s.nextFree).keyq = s.keyq := rfl
@[simp] theorem nextFree_abortPending : (s.nextFree).abortPending = s.abortPending := rfl
@[simp] theorem nextFree_haltPending : (s.nextFree).haltPending = s.haltPending := rfl
@[simp] theorem nextFree_cfg : (s.nextFree).cfg = s.cfg := rfl
@[simp] theorem nextFree_now : (s.nextFree).now = s.now := rfl
@[simp] theorem nextFree_frames : (s.nextFree).frames = s.frames := rfl
@[simp] theorem nextFree_debugOut : (s.nextFree).debugOut = s.debugOut := rfl
@[simp] theorem nextFree_moves : (s.nextFree).moves = s.moves := rfl
@[simp] theorem nextFree_supply : (s.nextFree).supply = s.supply := rfl
@[simp] theorem nextFree_freeCtr : (s.nextFree).freeCtr = s.freeCtr + 1 := rfl
@[simp] theorem nextFree_reg (y : Reg) : (s.nextFree).reg y = s.reg y := rfl
@[simp] theorem nextFree_readByte (a : Nat) : (s.nextFree).readByte a = s.readByte a := rfl

/-! ### raise -/

@[simp] theorem raise_v (r : FaultRecord) : (s.raise r).v = s.v := rfl
@[simp] theorem raise_pc (r : FaultRecord) : (s.raise r).pc = s.pc := rfl
@[simp] theorem raise_i (r : FaultRecord) : (s.raise r).i = s.i := rfl
@[simp] theorem raise_stack (r : FaultRecord) : (s.raise r).stack = s.stack := rfl
@[simp] theorem raise_mem (r : FaultRecord) : (s.raise r).mem = s.mem := rfl
@[simp] theorem raise_disp (r : FaultRecord) : (s.raise r).disp = s.disp := rfl
@[simp] theorem raise_dt (r : FaultRecord) : (s.raise r).dt = s.dt := rfl
@[simp] theorem raise_st (r : FaultRecord) : (s.raise r).st = s.st := rfl
@[simp] theorem raise_run (r : FaultRecord) : (s.raise r).run = .faulted := rfl
@[simp] theorem raise_phase (r : FaultRecord) : (s.raise r).phase = s.phase := rfl
@[simp] theorem raise_fault (r : FaultRecord) : (s.raise r).fault = some r := rfl
@[simp] theorem raise_keyq (r : FaultRecord) : (s.raise r).keyq = s.keyq := rfl
@[simp] theorem raise_abortPending (r : FaultRecord) : (s.raise r).abortPending = s.abortPending := rfl
@[simp] theorem raise_haltPending (r : FaultRecord) : (s.raise r).haltPending = s.haltPending := rfl
@[simp] theorem raise_cfg (r : FaultRecord) : (s.raise r).cfg = s.cfg := rfl
@[simp] theorem raise_now (r : FaultRecord) : (s.raise r).now = s.now := rfl
@[simp] theorem raise_frames (r : FaultRecord) : (s.raise r).frames = s.frames := rfl
@[simp] theorem raise_debugOut (r : FaultRecord) : (s.raise r).debugOut = s.debugOut := rfl
@[simp] theorem raise_moves (r : FaultRecord) : (s.raise r).moves = s.moves := rfl
@[simp] theorem raise_supply (r : FaultRecord) : (s.raise r).supply = s.supply := rfl
@[simp] theorem raise_freeCtr (r : FaultRecord) : (s.raise r).freeCtr = s.freeCtr := rfl
@[simp] theorem raise_reg (r : FaultRecord) (y : Reg) : (s.raise r).reg y = s.reg y := rfl
@[simp] theorem raise_readByte (r : FaultRecord) (a : Nat) : (s.raise r).readByte a = s.readByte a := rfl

end Sys2Proof.Machine
end

