-- ==== Sys2Proof/Laws/Registers.lean ====
section
/-! SUPPORT. The register file: read after write, the flag-producing write, the block moves of
`Fx55` and `Fx65`, and the skip. -/

namespace Sys2Proof.Machine

variable (s : State)

theorem reg_setReg (x : Reg) (b : Byte) (y : Reg) :
    (s.setReg x b).reg y = if x = y then b else s.reg y := by
  simp [State.reg, State.setReg, Vector.getElem_set, Fin.ext_iff]

@[simp] theorem reg_setReg_same (x : Reg) (b : Byte) : (s.setReg x b).reg x = b := by
  simp [reg_setReg]

theorem reg_setReg_ne {x y : Reg} (b : Byte) (h : y ≠ x) : (s.setReg x b).reg y = s.reg y := by
  simp [reg_setReg, Ne.symm h]

/-- A register write changes `V` only. -/
theorem setReg_eq (x : Reg) (b : Byte) : s.setReg x b = { s with v := (s.setReg x b).v } := rfl

/-- The flag is the last write: `VF` ends as the flag whatever `x` is (43_alu.md R160, R171). -/
theorem reg_setRegFlag (x : Reg) (r : AluResult) (y : Reg) :
    (s.setRegFlag x r).reg y = if y = vF then r.flag else if y = x then r.value else s.reg y := by
  simp only [State.setRegFlag, reg_setReg, eq_comm]

/-- A flag-producing write changes `V` only. -/
theorem setRegFlag_eq (x : Reg) (r : AluResult) :
    s.setRegFlag x r = { s with v := (s.setRegFlag x r).v } := rfl

/-- A skip changes `pc` only, by 2 or by nothing (41_skips.md R140). -/
theorem skipIf_eq (c : Bool) : s.skipIf c = { s with pc := if c then s.pc + 2 else s.pc } := by
  cases c <;> rfl

/-- Loading registers changes `V` only. -/
theorem loadRegs_eq (j : Nat) (bs : List Byte) :
    s.loadRegs j bs = { s with v := (s.loadRegs j bs).v } := by
  induction bs generalizing s j with
  | nil => rfl
  | cons b bs ih =>
    rw [State.loadRegs, ih]
    rfl

/-- The value each register holds after a block load from `V[j]` on (47_index_memory.md R245). -/
theorem reg_loadRegs (j : Nat) (bs : List Byte) (hj : j + bs.length ≤ 16) (y : Reg) :
    (s.loadRegs j bs).reg y =
      if j ≤ y.val ∧ y.val < j + bs.length then bs.getD (y.val - j) 0 else s.reg y := by
  induction bs generalizing s j with
  | nil => simp [State.loadRegs]
  | cons b bs ih =>
    simp only [List.length_cons] at hj
    have hv : (Fin.ofNat 16 j).val = j := by simp [Fin.ofNat]; omega
    rw [State.loadRegs, ih _ _ (by omega), reg_setReg]
    simp only [List.length_cons, Fin.ext_iff, hv]
    by_cases h1 : j + 1 ≤ y.val ∧ y.val < j + 1 + bs.length
    · rw [if_pos h1, if_pos (by omega), show y.val - j = y.val - (j + 1) + 1 by omega,
        List.getD_cons_succ]
    · rw [if_neg h1]
      by_cases h2 : j = y.val
      · rw [if_pos h2, if_pos (by omega), h2, Nat.sub_self, List.getD_cons_zero]
      · rw [if_neg h2, if_neg (by omega)]

@[simp] theorem regsUpTo_length (x : Reg) : (s.regsUpTo x).length = x.val + 1 := by
  simp [State.regsUpTo]

/-- Element `j` of what `Fx55` stores is `V[j]` (47_index_memory.md R244). -/
theorem regsUpTo_getD (x y : Reg) (h : y ≤ x) : (s.regsUpTo x).getD y.val 0 = s.reg y := by
  have hy : y.val < x.val + 1 := Nat.lt_succ_of_le h
  have hf : Fin.ofNat 16 y.val = y := by simp
  simp only [State.regsUpTo, List.getD_eq_getElem?_getD, List.getElem?_map,
    List.getElem?_range hy, Option.map_some, Option.getD_some, hf]

end Sys2Proof.Machine
end

