-- ==== Sys2Proof/Laws/Alu.lean ====
section
/-! SUPPORT. The arithmetic as numbers, and the operand forms as numbers. -/

namespace Sys2Proof.Machine

theorem flagByte_toNat (c : Bool) : (flagByte c).toNat = if c then 1 else 0 := by
  cases c <;> rfl

theorem aluAdd_value (p q : Byte) : (aluAdd p q).value.toNat = (p.toNat + q.toNat) % 256 := by
  simp only [aluAdd, BitVec.toNat_ofNat]
  omega

theorem aluAdd_flag (p q : Byte) :
    (aluAdd p q).flag.toNat = if 255 < p.toNat + q.toNat then 1 else 0 := by
  simp only [aluAdd, flagByte_toNat, decide_eq_true_eq]

theorem aluSub_value (p q : Byte) :
    (aluSub p q).value.toNat = (p.toNat + 256 - q.toNat) % 256 := by
  simp only [aluSub, BitVec.toNat_ofNat]
  omega

theorem aluSub_flag (p q : Byte) :
    (aluSub p q).flag.toNat = if q.toNat ≤ p.toNat then 1 else 0 := by
  simp only [aluSub, flagByte_toNat, decide_eq_true_eq]

theorem aluShr_value (q : Byte) : (aluShr q).value.toNat = q.toNat / 2 := by
  have := q.isLt
  simp only [aluShr, BitVec.toNat_ofNat]
  omega

theorem aluShr_flag (q : Byte) : (aluShr q).flag.toNat = q.toNat % 2 := by
  simp only [aluShr, flagByte_toNat, BitVec.getLsbD, Nat.testBit_zero, decide_eq_true_eq]
  split <;> omega

theorem aluShl_value (q : Byte) : (aluShl q).value.toNat = q.toNat * 2 % 256 := by
  simp only [aluShl, BitVec.toNat_ofNat]
  omega

theorem aluShl_flag (q : Byte) : (aluShl q).flag.toNat = q.toNat / 128 := by
  have := q.isLt
  simp only [aluShl, flagByte_toNat, BitVec.getLsbD, Nat.testBit_eq_decide_div_mod_eq,
    decide_eq_true_eq]
  split <;> omega

theorem zextAddr_toNat (nnn : Addr12) : (zextAddr nnn).toNat = nnn.toNat := by
  have := nnn.isLt
  simp only [zextAddr, BitVec.toNat_setWidth]
  omega

theorem zextByte_toNat (b : Byte) : (zextByte b).toNat = b.toNat := by
  have := b.isLt
  simp only [zextByte, BitVec.toNat_setWidth]
  omega

theorem zextKey_toNat (c : KeyCode) : (zextKey c).toNat = c.toNat := by
  have := c.isLt
  simp only [zextKey, BitVec.toNat_setWidth]
  omega

theorem glyphAddr_toNat (b : Byte) : (glyphAddr b).toNat = 5 * (b.toNat % 16) := by
  simp only [glyphAddr, BitVec.toNat_ofNat, BitVec.extractLsb'_toNat, Nat.shiftRight_zero]
  omega

theorem bcdDigits_toNat (b : Byte) :
    (bcdDigits b).map BitVec.toNat = [b.toNat / 100, b.toNat / 10 % 10, b.toNat % 10] := by
  have := b.isLt
  simp only [bcdDigits, List.map_cons, List.map_nil, BitVec.toNat_ofNat, List.cons.injEq, and_true]
  omega

end Sys2Proof.Machine
end

