-- ==== Sys2Proof/Laws/Decode.lean ====
section
/-! SUPPORT. The fields of a word built by each of the formats, and words as bytes. -/

namespace Sys2Proof

@[simp] theorem regOf_nibbleOf (r : Reg) : regOf (nibbleOf r) = r := rfl

@[simp] theorem nibbleOf_regOf (b : Nibble) : nibbleOf (regOf b) = b := rfl

/-- The low part of a concatenation. -/
theorem extract_append_low {n m : Nat} (a : BitVec n) (b : BitVec m) (lo len : Nat)
    (h : lo + len ≤ m) : (a ++ b).extractLsb' lo len = b.extractLsb' lo len := by
  apply BitVec.eq_of_getLsbD_eq
  intro i hi
  simp only [BitVec.getLsbD_extractLsb', BitVec.getLsbD_append, hi, decide_true, Bool.true_and]
  rw [if_pos (by omega)]

/-- The high part of a concatenation. -/
theorem extract_append_high {n m : Nat} (a : BitVec n) (b : BitVec m) (lo len : Nat)
    (h : m ≤ lo) : (a ++ b).extractLsb' lo len = a.extractLsb' (lo - m) len := by
  apply BitVec.eq_of_getLsbD_eq
  intro i hi
  simp only [BitVec.getLsbD_extractLsb', BitVec.getLsbD_append, hi, decide_true, Bool.true_and]
  rw [if_neg (by omega), show lo + i - m = lo - m + i by omega]

theorem extract_whole {n : Nat} (a : BitVec n) : a.extractLsb' 0 n = a := by
  apply BitVec.eq_of_getLsbD_eq
  intro i hi
  simp [hi]

/-- The fields of a word in format NNN that decoding reads (30_encoding.md R92). -/
theorem fields_wordNNN (op : Nibble) (nnn : Addr12) :
    (fields (wordNNN op nnn)).op = op ∧ (fields (wordNNN op nnn)).nnn = nnn := by
  constructor
  · simp only [fields, wordNNN, extract_append_high _ _ 12 4 (Nat.le_refl 12), Nat.sub_self,
      extract_whole]
  · simp only [fields, wordNNN, extract_append_low _ _ 0 12 (Nat.le_refl 12), extract_whole]

/-- The fields of a word in format XNN that decoding reads (30_encoding.md R92). -/
theorem fields_wordXNN (op : Nibble) (x : Reg) (nn : Byte) :
    (fields (wordXNN op x nn)).op = op ∧ (fields (wordXNN op x nn)).x = nibbleOf x ∧
      (fields (wordXNN op x nn)).nn = nn := by
  refine ⟨?_, ?_, ?_⟩
  · simp only [fields, wordXNN, extract_append_high _ _ 12 4 (Nat.le_refl 12), Nat.sub_self,
      extract_whole]
  · simp only [fields, wordXNN, extract_append_low _ _ 8 4 (Nat.le_refl 12),
      extract_append_high _ _ 8 4 (Nat.le_refl 8), Nat.sub_self, extract_whole]
  · simp only [fields, wordXNN, extract_append_low _ _ 0 8 (show 0 + 8 ≤ 4 + 8 by omega),
      extract_append_low _ _ 0 8 (Nat.le_refl 8), extract_whole]

/-- The fields of a word in formats XY and XYN that decoding reads (30_encoding.md R92). -/
theorem fields_wordXYN (op : Nibble) (x y : Reg) (n : Nibble) :
    (fields (wordXYN op x y n)).op = op ∧ (fields (wordXYN op x y n)).x = nibbleOf x ∧
      (fields (wordXYN op x y n)).y = nibbleOf y ∧ (fields (wordXYN op x y n)).n = n := by
  refine ⟨?_, ?_, ?_, ?_⟩
  · simp only [fields, wordXYN, extract_append_high _ _ 12 4 (show 4 + (4 + 4) ≤ 12 by omega),
      Nat.sub_self, extract_whole]
  · simp only [fields, wordXYN, extract_append_low _ _ 8 4 (show 8 + 4 ≤ 4 + (4 + 4) by omega),
      extract_append_high _ _ 8 4 (show 4 + 4 ≤ 8 by omega), Nat.sub_self, extract_whole]
  · simp only [fields, wordXYN, extract_append_low _ _ 4 4 (show 4 + 4 ≤ 4 + (4 + 4) by omega),
      extract_append_low _ _ 4 4 (show 4 + 4 ≤ 4 + 4 by omega),
      extract_append_high _ _ 4 4 (Nat.le_refl 4), Nat.sub_self, extract_whole]
  · simp only [fields, wordXYN, extract_append_low _ _ 0 4 (show 0 + 4 ≤ 4 + (4 + 4) by omega),
      extract_append_low _ _ 0 4 (show 0 + 4 ≤ 4 + 4 by omega),
      extract_append_low _ _ 0 4 (Nat.le_refl 4), extract_whole]

/-- A word's two bytes put together again are the word (20_memory.md R67). -/
theorem wordOfBytes_bytesOfWord (w : Word) :
    wordOfBytes (w.extractLsb' 8 8) (w.extractLsb' 0 8) = w := by
  apply BitVec.eq_of_getLsbD_eq
  intro i hi
  simp only [wordOfBytes, BitVec.getLsbD_append, BitVec.getLsbD_extractLsb']
  split
  · simp_all
  · have h : i - 8 < 8 := by omega
    simp only [h, decide_true, Bool.true_and]
    rw [show 8 + (i - 8) = i by omega]

/-- A word is its nibbles. -/
theorem word_of_nibbles (w : Word) :
    w = (fields w).op ++ ((fields w).x ++ ((fields w).y ++ (fields w).n)) := by
  apply BitVec.eq_of_getLsbD_eq
  intro i hi
  simp only [fields, BitVec.getLsbD_append, BitVec.getLsbD_extractLsb']
  by_cases h0 : i < 4
  · simp [h0, show i < 4 + (4 + 4) by omega, show i < 4 + 4 by omega]
  · by_cases h1 : i < 8
    · simp [h0, h1, show i < 4 + (4 + 4) by omega, show i - 4 < 4 by omega,
        show 4 + (i - 4) = i by omega]
    · by_cases h2 : i < 12
      · simp [h1, h2, show i - (4 + 4) < 4 by omega, show 8 + (i - (4 + 4)) = i by omega]
      · simp [h2, show i - (4 + (4 + 4)) < 4 by omega,
          show 12 + (i - (4 + (4 + 4))) = i by omega]

/-- `nnn` is the three low nibbles (30_encoding.md R92). -/
theorem nnn_of_nibbles (w : Word) :
    (fields w).nnn = (fields w).x ++ ((fields w).y ++ (fields w).n) := by
  apply BitVec.eq_of_getLsbD_eq
  intro i hi
  simp only [fields, BitVec.getLsbD_append, BitVec.getLsbD_extractLsb']
  by_cases h0 : i < 4
  · simp [h0, show i < 4 + 4 by omega, show i < 12 by omega]
  · by_cases h1 : i < 8
    · simp [h0, h1, show i < 12 by omega, show i - 4 < 4 by omega, show 4 + (i - 4) = i by omega]
    · simp [h1, show i < 12 by omega, show i - (4 + 4) < 4 by omega,
        show 8 + (i - (4 + 4)) = i by omega]

/-- `nn` is the two low nibbles (30_encoding.md R92). -/
theorem nn_of_nibbles (w : Word) : (fields w).nn = (fields w).y ++ (fields w).n := by
  apply BitVec.eq_of_getLsbD_eq
  intro i hi
  simp only [fields, BitVec.getLsbD_append, BitVec.getLsbD_extractLsb']
  by_cases h0 : i < 4
  · simp [h0, show i < 8 by omega]
  · simp [h0, show i < 8 by omega, show i - 4 < 4 by omega, show 4 + (i - 4) = i by omega]

/-- A word in format NNN. -/
theorem word_of_op_nnn (w : Word) : w = (fields w).op ++ (fields w).nnn := by
  rw [nnn_of_nibbles]
  exact word_of_nibbles w

/-- A word in format XNN. -/
theorem word_of_op_x_nn (w : Word) : w = (fields w).op ++ ((fields w).x ++ (fields w).nn) := by
  rw [nn_of_nibbles]
  exact word_of_nibbles w

end Sys2Proof
end

