-- ==== Sys2Proof/Laws/Memory.lean ====
section
/-! SUPPORT. RAM: every operation keeps the canonical form, a read after a write gives the value
written and a write leaves every other byte alone; the bounds check; the two ranged accesses. -/

namespace Sys2Proof.Machine

theorem wfFrom_cons {lo a : Nat} {b : Byte} {m : Memory} :
    Memory.wfFrom lo ((a, b) :: m) = true ↔
      lo ≤ a ∧ a < Config.ramSize ∧ b ≠ ramDefault a ∧ Memory.wfFrom (a + 1) m = true := by
  simp [Memory.wfFrom, and_assoc]

theorem wfFrom_mono {lo lo' : Nat} (h : lo' ≤ lo) {m : Memory} (hm : Memory.wfFrom lo m = true) :
    Memory.wfFrom lo' m = true := by
  cases m with
  | nil => rfl
  | cons c m =>
    obtain ⟨a, b⟩ := c
    rw [wfFrom_cons] at hm ⊢
    exact ⟨by omega, hm.2⟩

/-- Below its first cell a memory reads as the default. -/
theorem read_below {lo : Nat} {m : Memory} (hm : Memory.wfFrom lo m = true) {a : Nat} (h : a < lo) :
    Memory.read m a = ramDefault a := by
  induction m generalizing lo with
  | nil => rfl
  | cons c m ih =>
    obtain ⟨k, b⟩ := c
    rw [wfFrom_cons] at hm
    rw [Memory.read, if_neg (by omega)]
    exact ih hm.2.2.2 (by omega)

theorem wfFrom_consCell {a : Nat} {b : Byte} {m : Memory} (ha : a < Config.ramSize)
    (hm : Memory.wfFrom (a + 1) m = true) : Memory.wfFrom a (Memory.consCell a b m) = true := by
  unfold Memory.consCell
  split
  · exact wfFrom_mono (Nat.le_succ a) hm
  · rw [wfFrom_cons]
    exact ⟨Nat.le_refl a, ha, ‹_›, hm⟩

theorem read_consCell {a : Nat} {b : Byte} {m : Memory} (hm : Memory.wfFrom (a + 1) m = true)
    (c : Nat) :
    Memory.read (Memory.consCell a b m) c = if c = a then b else Memory.read m c := by
  unfold Memory.consCell
  by_cases hb : b = ramDefault a
  · rw [if_pos hb]
    split
    · subst_vars
      exact read_below hm (Nat.lt_succ_self _)
    · rfl
  · rw [if_neg hb, Memory.read]
    simp only [eq_comm]

theorem wfFrom_write {lo a : Nat} {b : Byte} {m : Memory} (hlo : lo ≤ a) (ha : a < Config.ramSize)
    (hm : Memory.wfFrom lo m = true) : Memory.wfFrom lo (Memory.write m a b) = true := by
  induction m generalizing lo with
  | nil => exact wfFrom_mono hlo (wfFrom_consCell ha rfl)
  | cons c m ih =>
    obtain ⟨k, x⟩ := c
    rw [wfFrom_cons] at hm
    obtain ⟨h1, h2, h3, h4⟩ := hm
    rw [Memory.write]
    split
    · exact wfFrom_mono hlo (wfFrom_consCell ha (wfFrom_cons.2 ⟨by omega, h2, h3, h4⟩))
    · split
      · subst_vars
        exact wfFrom_mono hlo (wfFrom_consCell ha h4)
      · exact wfFrom_cons.2 ⟨h1, h2, h3, ih (by omega) h4⟩

/-- A write to RAM keeps the canonical form. -/
theorem wf_write {m : Memory} {a : Nat} {b : Byte} (ha : a < Config.ramSize)
    (hm : Memory.wf m = true) : Memory.wf (Memory.write m a b) = true :=
  wfFrom_write (Nat.zero_le a) ha hm

theorem read_writeFrom {lo a : Nat} {b : Byte} {m : Memory} (hm : Memory.wfFrom lo m = true)
    (c : Nat) : Memory.read (Memory.write m a b) c = if c = a then b else Memory.read m c := by
  induction m generalizing lo with
  | nil => exact read_consCell rfl c
  | cons p m ih =>
    obtain ⟨k, x⟩ := p
    have hm' := hm
    rw [wfFrom_cons] at hm
    obtain ⟨h1, h2, h3, h4⟩ := hm
    rw [Memory.write]
    split
    · exact read_consCell (wfFrom_cons.2 ⟨by omega, h2, h3, h4⟩) c
    · split
      · subst_vars
        rw [read_consCell h4, Memory.read]
        split
        · rfl
        · rw [if_neg (by omega)]
      · rw [Memory.read, Memory.read, ih h4]
        by_cases hk : k = c
        · rw [if_pos hk, if_pos hk, if_neg (by omega)]
        · rw [if_neg hk, if_neg hk]

/-- Read after write (20_memory.md R69), in a canonical memory. -/
theorem read_write {m : Memory} (hm : Memory.wf m = true) (a : Nat) (b : Byte) (c : Nat) :
    Memory.read (Memory.write m a b) c = if c = a then b else Memory.read m c :=
  read_writeFrom hm c

/-- Writing a sequence of bytes inside RAM keeps the canonical form. -/
theorem wf_writeAll {m : Memory} (hm : Memory.wf m = true) (a : Nat) (bs : List Byte)
    (h : a + bs.length ≤ Config.ramSize) : Memory.wf (Memory.writeAll m a bs) = true := by
  induction bs generalizing a with
  | nil => exact hm
  | cons b bs ih =>
    rw [List.length_cons] at h
    exact wf_write (by omega) (ih (a + 1) (by omega))

/-- What every address reads as after writing a sequence of bytes inside RAM. -/
theorem read_writeAll {m : Memory} (hm : Memory.wf m = true) (a : Nat) (bs : List Byte)
    (h : a + bs.length ≤ Config.ramSize) (c : Nat) :
    Memory.read (Memory.writeAll m a bs) c =
      if a ≤ c ∧ c < a + bs.length then bs.getD (c - a) 0 else Memory.read m c := by
  induction bs generalizing a with
  | nil => simp [Memory.writeAll]
  | cons b bs ih =>
    rw [List.length_cons] at h
    rw [Memory.writeAll, read_write (wf_writeAll hm _ _ (by omega)), ih (a + 1) (by omega),
      List.length_cons]
    by_cases h1 : c = a
    · subst h1
      rw [if_pos rfl, if_pos (by omega), Nat.sub_self, List.getD_cons_zero]
    · rw [if_neg h1]
      by_cases h2 : a + 1 ≤ c ∧ c < a + 1 + bs.length
      · rw [if_pos h2, if_pos (by omega), show c - a = c - (a + 1) + 1 by omega,
          List.getD_cons_succ]
      · rw [if_neg h2, if_neg (by omega)]

/-- Dropping the cells above the font keeps the canonical form (70_reset_and_hazards.md R302). -/
theorem wf_keepFilter {m : Memory} {lo : Nat} (hm : Memory.wfFrom lo m = true)
    (p : Host.Cell → Bool) : Memory.wfFrom lo (m.filter p) = true := by
  induction m generalizing lo with
  | nil => rfl
  | cons c m ih =>
    obtain ⟨a, b⟩ := c
    rw [wfFrom_cons] at hm
    rw [List.filter_cons]
    split
    · exact wfFrom_cons.2 ⟨hm.1, hm.2.1, hm.2.2.1, ih hm.2.2.2⟩
    · exact wfFrom_mono (by omega) (ih hm.2.2.2)

/-- Two canonical memories that read the same at every address are the same data. -/
theorem eq_of_read_eq {m m' : Memory} {lo : Nat} (hm : Memory.wfFrom lo m = true)
    (hm' : Memory.wfFrom lo m' = true) (h : ∀ a, Memory.read m a = Memory.read m' a) : m = m' := by
  induction m generalizing lo m' with
  | nil =>
    cases m' with
    | nil => rfl
    | cons c m' =>
      obtain ⟨a, b⟩ := c
      rw [wfFrom_cons] at hm'
      have ha := h a
      rw [Memory.read, Memory.read, if_pos rfl] at ha
      exact absurd ha.symm hm'.2.2.1
  | cons c m ih =>
    obtain ⟨a, b⟩ := c
    have hma := hm
    rw [wfFrom_cons] at hm
    cases m' with
    | nil =>
      have ha := h a
      rw [Memory.read, Memory.read, if_pos rfl] at ha
      exact absurd ha hm.2.2.1
    | cons c' m' =>
      obtain ⟨a', b'⟩ := c'
      have hma' := hm'
      rw [wfFrom_cons] at hm'
      have hlt : ¬ a < a' := by
        intro hlt
        have ha := h a
        rw [Memory.read, if_pos rfl, read_below (wfFrom_cons.2 ⟨hlt, hm'.2.1, hm'.2.2.1, hm'.2.2.2⟩)
          (Nat.lt_succ_self a)] at ha
        exact hm.2.2.1 ha
      have hgt : ¬ a' < a := by
        intro hgt
        have ha := h a'
        rw [read_below (wfFrom_cons.2 ⟨hgt, hm.2.1, hm.2.2.1, hm.2.2.2⟩) (Nat.lt_succ_self a'),
          Memory.read, if_pos rfl] at ha
        exact hm'.2.2.1 ha.symm
      have haa : a = a' := by omega
      subst haa
      have hb := h a
      rw [Memory.read, Memory.read, if_pos rfl, if_pos rfl] at hb
      subst hb
      rw [ih hm.2.2.2 hm'.2.2.2 (fun c => ?_)]
      by_cases hc : c ≤ a
      · rw [read_below hm.2.2.2 (by omega), read_below hm'.2.2.2 (by omega)]
      · have hcc := h c
        rwa [Memory.read, Memory.read, if_neg (by omega), if_neg (by omega)] at hcc

/-! ### The bounds check -/

theorem rangeFault_none {a k : Nat} : rangeFault a k = none ↔ k = 0 ∨ a + k ≤ 0x1000 := by
  unfold rangeFault
  split <;> simp <;> omega

theorem rangeFault_some {a k e : Nat} :
    rangeFault a k = some e ↔ k ≠ 0 ∧ 0x1000 < a + k ∧ e = max a 0x1000 := by
  unfold rangeFault
  split
  · simp only [Option.some.injEq]
    omega
  · simp only [reduceCtorEq, false_iff]
    omega

@[simp] theorem bytes_length (m : Memory) (a k : Nat) : (Memory.bytes m a k).length = k := by
  simp [Memory.bytes]

theorem bytes_getD (m : Memory) (a k j : Nat) (h : j < k) :
    (Memory.bytes m a k).getD j 0 = Memory.read m (a + j) := by
  simp [Memory.bytes, List.getD_eq_getElem?_getD, h]

variable (s : State)

/-- What `readRange` answers: the bytes, or the lowest out-of-range address of the access. -/
theorem readRange_cases (a k : Nat) :
    (k = 0 ∨ a + k ≤ 0x1000) ∧ s.readRange a k = .ok (Memory.bytes s.mem a k) ∨
      k ≠ 0 ∧ 0x1000 < a + k ∧ s.readRange a k = .error (max a 0x1000) := by
  unfold State.readRange
  cases h : rangeFault a k with
  | none => exact .inl ⟨rangeFault_none.1 h, rfl⟩
  | some e =>
    obtain ⟨h1, h2, h3⟩ := rangeFault_some.1 h
    exact .inr ⟨h1, h2, by rw [h3]⟩

/-- What `writeRange` answers: the state with the bytes written, or the lowest out-of-range address
and nothing written (47_index_memory.md R246). -/
theorem writeRange_cases (a : Nat) (bs : List Byte) :
    (bs = [] ∨ a + bs.length ≤ 0x1000) ∧
        s.writeRange a bs = .ok { s with mem := Memory.writeAll s.mem a bs } ∨
      bs ≠ [] ∧ 0x1000 < a + bs.length ∧ s.writeRange a bs = .error (max a 0x1000) := by
  unfold State.writeRange
  cases h : rangeFault a bs.length with
  | none => exact .inl ⟨by simpa using rangeFault_none.1 h, rfl⟩
  | some e =>
    obtain ⟨h1, h2, h3⟩ := rangeFault_some.1 h
    exact .inr ⟨by simpa using h1, h2, by rw [h3]⟩

/-- What the fetch answers (20_memory.md R67). -/
theorem readWord_cases (a : Nat) :
    a ≤ 0xFFE ∧ s.readWord a = .ok (wordOfBytes (s.readByte a) (s.readByte (a + 1))) ∨
      0xFFE < a ∧ s.readWord a = .error (max a 0x1000) := by
  unfold State.readWord
  cases h : rangeFault a 2 with
  | none => exact .inl ⟨by have := rangeFault_none.1 h; omega, rfl⟩
  | some e =>
    obtain ⟨h1, h2, h3⟩ := rangeFault_some.1 h
    exact .inr ⟨by omega, by rw [h3]⟩

end Sys2Proof.Machine
end

