-- ==== Sys2Proof/Laws/Display.lean ====
section
/-! SUPPORT. Pixels: a flip changes one pixel, and what one pixel of the blitter's inner loop does
(44_display.md R182). -/

namespace Sys2Proof.Machine

/-- Outside the 64 by 32 area every pixel is clear. -/
theorem pixel_outside (d : Display) {px py : Nat} (h : 63 < px ∨ 31 < py) :
    Display.pixel d px py = false := by
  unfold Display.pixel
  by_cases hy : py < 32
  · simp only [Vector.getElem?_eq_getElem hy]
    exact BitVec.getLsbD_of_ge _ _ (by omega)
  · simp only [Vector.getElem?_eq_none (show 32 ≤ py by omega)]

/-- Every pixel of the clear display is clear. -/
@[simp] theorem pixel_clear (px py : Nat) : Display.pixel Display.clear px py = false := by
  unfold Display.pixel Display.clear
  by_cases hy : py < 32
  · simp [Vector.getElem?_eq_getElem hy]
  · simp [Vector.getElem?_eq_none (show 32 ≤ py by omega)]

/-- A flip inside the area changes exactly the pixel it names. -/
theorem pixel_flip (d : Display) {qx qy : Nat} (hx : qx < 64) (hy : qy < 32) (px py : Nat) :
    Display.pixel (Display.flip d qx qy) px py =
      (Display.pixel d px py ^^ decide (px = qx ∧ py = qy)) := by
  unfold Display.flip
  simp only [Vector.getElem?_eq_getElem hy]
  unfold Display.pixel
  by_cases hpy : py < 32
  · by_cases h : qy = py
    · subst h
      simp only [Vector.getElem?_eq_getElem hy, Vector.getElem_setIfInBounds_self,
        BitVec.getLsbD_xor, BitVec.getLsbD_twoPow, hx, decide_true, Bool.true_and, and_true,
        eq_comm]
    · simp only [Vector.getElem?_eq_getElem hpy, Vector.getElem_setIfInBounds_ne hpy h,
        show ¬ py = qy from fun e => h e.symm, and_false, decide_false, Bool.xor_false]
  · simp only [Vector.getElem?_eq_none (show 32 ≤ py by omega), show ¬ py = qy by omega, and_false,
      decide_false, Bool.xor_false]

/-- Two displays with the same pixels are the same data. -/
theorem display_ext {d d' : Display}
    (h : ∀ px py, px < 64 → py < 32 → Display.pixel d px py = Display.pixel d' px py) : d = d' := by
  apply Vector.ext
  intro py hpy
  apply BitVec.eq_of_getLsbD_eq
  intro px hpx
  have := h px py hpx hpy
  simpa only [Display.pixel, Vector.getElem?_eq_getElem hpy] using this

/-- Everything one pixel of the inner loop does (44_display.md R182). -/
theorem blitPixel_cases (row : Byte) (x0 py c : Nat) (b : BlitState) :
    (x0 + c ≤ 63 ∧ row.getLsbD (7 - c) = true) ∧
        blitPixel row x0 py c b =
          { disp := Display.flip b.disp (x0 + c) py
            collision := b.collision || Display.pixel b.disp (x0 + c) py } ∨
      ¬ (x0 + c ≤ 63 ∧ row.getLsbD (7 - c) = true) ∧ blitPixel row x0 py c b = b := by
  unfold blitPixel
  by_cases h : x0 + c ≤ 63 ∧ row.getLsbD (7 - c) = true
  · exact .inl ⟨h, if_pos h⟩
  · exact .inr ⟨h, if_neg h⟩

end Sys2Proof.Machine
end

