-- ==== Sys2Proof/Laws/Keypad.lean ====
section
/-! SUPPORT. The Input Controller's queries (45_keypad.md R203, R204, R208). -/

namespace Sys2Proof.Machine

/-- A scan finds a key exactly when some buffered press has its code (45_keypad.md R203). -/
theorem keyScan_iff (k : Byte) (q : List KeyCode) :
    keyScan k q = true ↔ ∃ c ∈ q, c.toNat = k.toNat := by
  simp only [keyScan, List.any_eq_true, beq_iff_eq, ← BitVec.toNat_inj, zextKey_toNat]

@[simp] theorem drainKeys_eq (s : State) : s.drainKeys = { s with keyq := [] } := rfl

theorem abortWait_eq (s : State) : s.abortWait = { s with run := .aborted } := rfl

theorem completeWait_eq (s : State) (r : Reg) (c : KeyCode) (rest : List KeyCode) :
    s.completeWait r c rest =
      { s with v := (s.setReg r (zextKey c)).v, keyq := rest, phase := .fetch } := rfl

theorem nextFree_eq (s : State) : s.nextFree = { s with freeCtr := s.freeCtr + 1 } := rfl

/-- Everything the engine's turn can do in a key wait (45_keypad.md R208): nothing, the abort step or
the completion step, each only when it is enabled. -/
theorem waitTurn_cases (s : State) (r : Reg) :
    (s.keyq = [] ∧ s.abortPending = false ∧ s.waitTurn r = s) ∨
      (s.keyq = [] ∧ s.abortPending = true ∧ s.waitTurn r = s.abortWait) ∨
      ∃ c rest, s.keyq = c :: rest ∧
        ((s.abortPending = false ∧ s.waitTurn r = s.completeWait r c rest) ∨
          (s.abortPending = true ∧
            (s.waitTurn r = s.nextFree.abortWait ∨
              s.waitTurn r = s.nextFree.completeWait r c rest))) := by
  cases hq : s.keyq with
  | nil =>
    cases ha : s.abortPending with
    | false => exact .inl ⟨rfl, rfl, by simp only [State.waitTurn, hq, ha]⟩
    | true => exact .inr (.inl ⟨rfl, rfl, by simp only [State.waitTurn, hq, ha]⟩)
  | cons c rest =>
    refine .inr (.inr ⟨c, rest, rfl, ?_⟩)
    cases ha : s.abortPending with
    | false => exact .inl ⟨rfl, by simp only [State.waitTurn, hq, ha]⟩
    | true =>
      refine .inr ⟨rfl, ?_⟩
      simp only [State.waitTurn, hq, ha]
      split
      · exact .inl rfl
      · exact .inr rfl

end Sys2Proof.Machine
end

