-- ==== Sys2Proof/Laws/PerInstr.lean ====
section
/-! SUPPORT. Facts about every instruction as syntax, one lemma per constructor. -/

namespace Sys2Proof.Laws.WordOfRow

/-- The word of an instruction has the fixed bits of its row of the opcode table
(30_encoding.md R99). -/
def Statement (i : Instr) : Prop :=
  ∃ r, opcodeTable[i.row]? = some r ∧ encode i &&& r.mask = r.pattern

theorem nnn_fixed (op : Nibble) (nnn : Addr12) : wordNNN op nnn &&& 0xF000#16 = op ++ 0#12 := by
  rw [wordNNN, show 0xF000#16 = BitVec.allOnes 4 ++ 0#12 from rfl, BitVec.and_append,
    BitVec.and_allOnes, BitVec.and_zero]

theorem xnn_fixed_op (op : Nibble) (x : Reg) (nn : Byte) :
    wordXNN op x nn &&& 0xF000#16 = op ++ 0#12 := by
  rw [wordXNN, show 0xF000#16 = BitVec.allOnes 4 ++ 0#12 from rfl, BitVec.and_append,
    BitVec.and_allOnes, BitVec.and_zero]

theorem xnn_fixed (op : Nibble) (x : Reg) (nn : Byte) :
    wordXNN op x nn &&& 0xF0FF#16 = op ++ (0#4 ++ nn) := by
  rw [wordXNN, show 0xF0FF#16 = BitVec.allOnes 4 ++ (0#4 ++ BitVec.allOnes 8) from rfl,
    BitVec.and_append, BitVec.and_append, BitVec.and_allOnes, BitVec.and_zero, BitVec.and_allOnes]

theorem xyn_fixed_op (op : Nibble) (x y : Reg) (n : Nibble) :
    wordXYN op x y n &&& 0xF000#16 = op ++ 0#12 := by
  rw [wordXYN, show 0xF000#16 = BitVec.allOnes 4 ++ 0#12 from rfl, BitVec.and_append,
    BitVec.and_allOnes, BitVec.and_zero]

theorem xyn_fixed (op : Nibble) (x y : Reg) (n : Nibble) :
    wordXYN op x y n &&& 0xF00F#16 = op ++ (0#4 ++ (0#4 ++ n)) := by
  rw [wordXYN, show 0xF00F#16 = BitVec.allOnes 4 ++ (0#4 ++ (0#4 ++ BitVec.allOnes 4)) from rfl,
    BitVec.and_append, BitVec.and_append, BitVec.and_append, BitVec.and_allOnes, BitVec.and_zero,
    BitVec.and_zero, BitVec.and_allOnes]

theorem cls : Statement .cls := ⟨_, rfl, rfl⟩
theorem ret : Statement .ret := ⟨_, rfl, rfl⟩
theorem sys (nnn : Addr12) : Statement (.sys nnn) := ⟨_, rfl, nnn_fixed _ _⟩
theorem jp (nnn : Addr12) : Statement (.jp nnn) := ⟨_, rfl, nnn_fixed _ _⟩
theorem call (nnn : Addr12) : Statement (.call nnn) := ⟨_, rfl, nnn_fixed _ _⟩
theorem seVxNn (x : Reg) (nn : Byte) : Statement (.seVxNn x nn) := ⟨_, rfl, xnn_fixed_op _ _ _⟩
theorem sneVxNn (x : Reg) (nn : Byte) : Statement (.sneVxNn x nn) := ⟨_, rfl, xnn_fixed_op _ _ _⟩
theorem seVxVy (x y : Reg) : Statement (.seVxVy x y) := ⟨_, rfl, xyn_fixed _ _ _ _⟩
theorem ldVxNn (x : Reg) (nn : Byte) : Statement (.ldVxNn x nn) := ⟨_, rfl, xnn_fixed_op _ _ _⟩
theorem addVxNn (x : Reg) (nn : Byte) : Statement (.addVxNn x nn) := ⟨_, rfl, xnn_fixed_op _ _ _⟩
theorem ldVxVy (x y : Reg) : Statement (.ldVxVy x y) := ⟨_, rfl, xyn_fixed _ _ _ _⟩
theorem orVxVy (x y : Reg) : Statement (.orVxVy x y) := ⟨_, rfl, xyn_fixed _ _ _ _⟩
theorem andVxVy (x y : Reg) : Statement (.andVxVy x y) := ⟨_, rfl, xyn_fixed _ _ _ _⟩
theorem xorVxVy (x y : Reg) : Statement (.xorVxVy x y) := ⟨_, rfl, xyn_fixed _ _ _ _⟩
theorem addVxVy (x y : Reg) : Statement (.addVxVy x y) := ⟨_, rfl, xyn_fixed _ _ _ _⟩
theorem subVxVy (x y : Reg) : Statement (.subVxVy x y) := ⟨_, rfl, xyn_fixed _ _ _ _⟩
theorem shrVxVy (x y : Reg) : Statement (.shrVxVy x y) := ⟨_, rfl, xyn_fixed _ _ _ _⟩
theorem subnVxVy (x y : Reg) : Statement (.subnVxVy x y) := ⟨_, rfl, xyn_fixed _ _ _ _⟩
theorem shlVxVy (x y : Reg) : Statement (.shlVxVy x y) := ⟨_, rfl, xyn_fixed _ _ _ _⟩
theorem sneVxVy (x y : Reg) : Statement (.sneVxVy x y) := ⟨_, rfl, xyn_fixed _ _ _ _⟩
theorem ldINnn (nnn : Addr12) : Statement (.ldINnn nnn) := ⟨_, rfl, nnn_fixed _ _⟩
theorem jpV0Nnn (nnn : Addr12) : Statement (.jpV0Nnn nnn) := ⟨_, rfl, nnn_fixed _ _⟩
theorem rndVxNn (x : Reg) (nn : Byte) : Statement (.rndVxNn x nn) := ⟨_, rfl, xnn_fixed_op _ _ _⟩
theorem drwVxVyN (x y : Reg) (n : Nibble) : Statement (.drwVxVyN x y n) := ⟨_, rfl, xyn_fixed_op _ _ _ _⟩
theorem skpVx (x : Reg) : Statement (.skpVx x) := ⟨_, rfl, xnn_fixed _ _ _⟩
theorem sknpVx (x : Reg) : Statement (.sknpVx x) := ⟨_, rfl, xnn_fixed _ _ _⟩
theorem ldVxDt (x : Reg) : Statement (.ldVxDt x) := ⟨_, rfl, xnn_fixed _ _ _⟩
theorem ldVxK (x : Reg) : Statement (.ldVxK x) := ⟨_, rfl, xnn_fixed _ _ _⟩
theorem ldDtVx (x : Reg) : Statement (.ldDtVx x) := ⟨_, rfl, xnn_fixed _ _ _⟩
theorem ldStVx (x : Reg) : Statement (.ldStVx x) := ⟨_, rfl, xnn_fixed _ _ _⟩
theorem addIVx (x : Reg) : Statement (.addIVx x) := ⟨_, rfl, xnn_fixed _ _ _⟩
theorem ldFVx (x : Reg) : Statement (.ldFVx x) := ⟨_, rfl, xnn_fixed _ _ _⟩
theorem ldBVx (x : Reg) : Statement (.ldBVx x) := ⟨_, rfl, xnn_fixed _ _ _⟩
theorem ldMemVx (x : Reg) : Statement (.ldMemVx x) := ⟨_, rfl, xnn_fixed _ _ _⟩
theorem ldVxMem (x : Reg) : Statement (.ldVxMem x) := ⟨_, rfl, xnn_fixed _ _ _⟩
theorem brk : Statement .brk := ⟨_, rfl, rfl⟩

end Sys2Proof.Laws.WordOfRow
end

