-- ==== Sys2Proof/Laws/Reset.lean ====
section
/-! SUPPORT. Reset and load: what the load answers, and what RAM holds after it
(70_reset_and_hazards.md R300 to R302; 60_exceptions.md R268). -/

namespace Sys2Proof.Machine

theorem unspecifiedBytes_length (ctr : Nat) : (unspecifiedBytes ctr).length = 3584 := by
  unfold unspecifiedBytes
  rw [List.length_map, List.length_range]

/-- RAM with the free values keeps its canonical form (60_exceptions.md R268). -/
theorem wf_writeUnspecified {m : Memory} (hm : Memory.wf m = true) (ctr : Nat) :
    Memory.wf (Memory.writeAll m Config.programBase (unspecifiedBytes ctr)) = true := by
  have hl := unspecifiedBytes_length ctr
  generalize unspecifiedBytes ctr = bs at hl
  exact wf_writeAll hm 0x200 bs (by rw [hl])

/-- The free values stand from 0x200 on: RAM below reads as before (93_implementation_defined.md
U13). -/
theorem read_writeUnspecified_below {m : Memory} (hm : Memory.wf m = true) (ctr : Nat) {a : Nat}
    (ha : a < 0x200) :
    Memory.read (Memory.writeAll m Config.programBase (unspecifiedBytes ctr)) a =
      Memory.read m a := by
  have hl := unspecifiedBytes_length ctr
  generalize unspecifiedBytes ctr = bs at hl
  rw [show Config.programBase = 0x200 from rfl, read_writeAll hm 0x200 bs (by rw [hl]),
    if_neg (by omega)]

/-- A reload's RAM is in canonical form (70_reset_and_hazards.md R302). -/
theorem wf_keepFont {m : Memory} (hm : Memory.wf m = true) :
    Memory.wf (Memory.keepFont m) = true :=
  wf_keepFilter hm _

/-- What a reload leaves of RAM before it loads: the font bytes, and the reset contents above
(70_reset_and_hazards.md R302). -/
theorem read_keepFont {m : Memory} {lo : Nat} (hm : Memory.wfFrom lo m = true) (a : Nat) :
    Memory.read (Memory.keepFont m) a = if a < 0x050 then Memory.read m a else ramDefault a := by
  induction m generalizing lo with
  | nil => simp [Memory.keepFont, Memory.read]
  | cons c m ih =>
    obtain ⟨k, b⟩ := c
    have ih := ih (wfFrom_cons.1 hm).2.2.2
    simp only [Memory.keepFont, Config.fontEnd, List.filter_cons, decide_eq_true_eq] at ih ⊢
    by_cases hk : k < 0x050
    · rw [if_pos hk, Memory.read, Memory.read, ih]
      by_cases h : k = a
      · rw [if_pos h, if_pos h, if_pos (by omega)]
      · rw [if_neg h, if_neg h]
    · rw [if_neg hk, ih, Memory.read]
      by_cases h : a < 0x050
      · rw [if_pos h, if_pos h, if_neg (by omega)]
      · rw [if_neg h, if_neg h]

variable (s : State)

/-- Everything a load can do (70_reset_and_hazards.md R301). -/
theorem load_cases (rom : List Byte) :
    rom.length ≤ 3584 ∧
        s.load rom =
          { s with mem := Memory.writeAll s.mem 0x200 rom, pc := 0x0200, run := .running } ∨
      3584 < rom.length ∧ s.load rom = s.raiseRomOversize rom.length := by
  unfold State.load
  by_cases h : rom.length ≤ Config.romMax
  · exact .inl ⟨h, if_pos h⟩
  · exact .inr ⟨Nat.lt_of_not_le h, if_neg h⟩

/-- `RomOversize` with RAM kept apart from the rest of the state (60_exceptions.md R268). -/
theorem raiseRomOversize_eq (len : Nat) (m : Memory)
    (hm : Memory.writeAll s.mem Config.programBase (unspecifiedBytes s.freeCtr) = m) :
    s.raiseRomOversize len =
      { s with
        mem := m, freeCtr := s.freeCtr + 1, run := .faulted
        fault := some { cause := .romOversize, addr := 0x0200, word := none,
                        info := BitVec.ofNat 16 (min len 0xFFFF) } } := by
  rw [← hm, State.raiseRomOversize, State.raise, State.nextFree]

end Sys2Proof.Machine
end

