-- ==== Sys2Proof/Laws/Stack.lean ====
section
/-! SUPPORT. The stack primitives (20_memory.md R76, R77). -/

namespace Sys2Proof.Machine

variable (s : State)

/-- What `Push` answers. -/
theorem push_cases (t : Word) :
    s.stack.length ≠ s.cfg.stackCapacity ∧ s.push t = some { s with stack := t :: s.stack } ∨
      s.stack.length = s.cfg.stackCapacity ∧ s.push t = none := by
  unfold State.push
  by_cases h : s.stack.length = s.cfg.stackCapacity
  · exact .inr ⟨h, if_pos h⟩
  · exact .inl ⟨h, if_neg h⟩

/-- What `Pop` answers. -/
theorem pop_cases :
    (∃ t rest, s.stack = t :: rest ∧ s.pop = some (t, { s with stack := rest })) ∨
      s.stack = [] ∧ s.pop = none := by
  unfold State.pop
  cases h : s.stack with
  | nil => exact .inr ⟨rfl, rfl⟩
  | cons t rest => exact .inl ⟨t, rest, rfl, rfl⟩

end Sys2Proof.Machine
end

