-- ==== Sys2Proof/Laws/Timers.lean ====
section
/-! SUPPORT. The timer unit as numbers (46_timers.md R222 to R225). -/

namespace Sys2Proof.Machine

/-- The value of a mutating read (46_timers.md R224). -/
theorem timerReadMut_value (scale : Nat) (T : Timer) (t : Nat) :
    (timerReadMut scale T t).1.toNat =
      match T.ref with
      | none => 0
      | some r => T.start.toNat - (t - r) / 16 / scale := by
  have := T.start.isLt
  unfold timerReadMut
  cases h : T.ref with
  | none => rfl
  | some r =>
    show _ = T.start.toNat - timerTicks r t / scale
    by_cases he : T.start.toNat ≤ timerTicks r t / scale
    · simp only [if_pos he, Nat.sub_eq_zero_of_le he]
      rfl
    · simp only [if_neg he, BitVec.toNat_ofNat]
      exact Nat.mod_eq_of_lt (Nat.lt_of_le_of_lt (Nat.sub_le _ _) this)

/-- The timer a mutating read leaves: the reference is cleared exactly when the value is exhausted
(46_timers.md R224). -/
theorem timerReadMut_timer (scale : Nat) (T : Timer) (t : Nat) :
    (timerReadMut scale T t).2 =
      match T.ref with
      | none => T
      | some r => if T.start.toNat ≤ (t - r) / 16 / scale then { T with ref := none } else T := by
  unfold timerReadMut
  cases h : T.ref with
  | none => rfl
  | some r =>
    show _ = if T.start.toNat ≤ timerTicks r t / scale then { T with ref := none } else T
    by_cases he : T.start.toNat ≤ timerTicks r t / scale
    · simp only [if_pos he]
    · simp only [if_neg he]

/-- The value of a peek (46_timers.md R225). -/
theorem timerPeek_value (T : Timer) (t : Nat) :
    (timerPeek T t).toNat =
      match T.ref with
      | none => 0
      | some r => T.start.toNat - (t - r) / 16 := by
  have := T.start.isLt
  unfold timerPeek
  cases T.ref with
  | none => rfl
  | some r =>
    simp only [timerTicks, Config.tickMs, BitVec.toNat_ofNat]
    omega

end Sys2Proof.Machine
end

