-- ==== Sys2Proof/Laws/Step.lean ====
section
/-! SUPPORT. What the step function can do, said once: the cases of the instructions that can raise a
fault, that every instruction answers a next state, and the cases of a cycle, of the engine's turn and
of a step. -/

namespace Sys2Proof.Machine

/-- Everything `2nnn` can do (40_cycle_and_control_flow.md R125). -/
theorem exec_call_cases (nnn : Addr12) (s : State) :
    s.stack.length ≠ s.cfg.stackCapacity ∧
        exec (.call nnn) s = .next { s with stack := s.pc :: s.stack, pc := zextAddr nnn } ∨
      s.stack.length = s.cfg.stackCapacity ∧
        exec (.call nnn) s = .next (s.raiseBody .stackOverflow (encode (.call nnn)) 0) := by
  rcases push_cases s s.pc with ⟨h, hp⟩ | ⟨h, hp⟩
  · exact .inl ⟨h, by simp only [exec, execCall, hp]; rfl⟩
  · exact .inr ⟨h, by simp only [exec, execCall, hp]⟩

/-- Everything `00EE` can do (40_cycle_and_control_flow.md R122). -/
theorem exec_ret_cases (s : State) :
    (∃ t rest, s.stack = t :: rest ∧ exec .ret s = .next { s with stack := rest, pc := t }) ∨
      s.stack = [] ∧ exec .ret s = .next (s.raiseBody .stackUnderflow (encode .ret) 0) := by
  rcases pop_cases s with ⟨t, rest, h, hp⟩ | ⟨h, hp⟩
  · exact .inl ⟨t, rest, h, by simp only [exec, execRet, hp]; rfl⟩
  · exact .inr ⟨h, by simp only [exec, execRet, hp]⟩

/-- Everything `Dxyn` can do (44_display.md R183). -/
theorem exec_drw_cases (x y : Reg) (n : Nibble) (s : State) :
    (n.toNat = 0 ∨ s.baseAddr + n.toNat ≤ 0x1000) ∧
        exec (.drwVxVyN x y n) s =
          .next (((s.setDisp (blit s.disp (s.reg x) (s.reg y)
              (Memory.bytes s.mem s.baseAddr n.toNat)).disp).setReg vF
            (flagByte (blit s.disp (s.reg x) (s.reg y)
              (Memory.bytes s.mem s.baseAddr n.toNat)).collision)).emitFrame) ∨
      n.toNat ≠ 0 ∧ 0x1000 < s.baseAddr + n.toNat ∧
        exec (.drwVxVyN x y n) s =
          .next (s.raiseAddress (encode (.drwVxVyN x y n)) (max s.baseAddr 0x1000)) := by
  rcases readRange_cases s s.baseAddr n.toNat with ⟨h, hr⟩ | ⟨h, h', hr⟩
  · exact .inl ⟨h, by simp only [exec, execDrwVxVyN, hr]⟩
  · exact .inr ⟨h, h', by simp only [exec, execDrwVxVyN, hr]⟩

/-- Everything `Fx33` can do (47_index_memory.md R243). -/
theorem exec_ldBVx_cases (x : Reg) (s : State) :
    s.baseAddr + 3 ≤ 0x1000 ∧
        exec (.ldBVx x) s =
          .next { s with mem := Memory.writeAll s.mem s.baseAddr (bcdDigits (s.reg x)) } ∨
      0x1000 < s.baseAddr + 3 ∧
        exec (.ldBVx x) s = .next (s.raiseAddress (encode (.ldBVx x)) (max s.baseAddr 0x1000)) := by
  rcases writeRange_cases s s.baseAddr (bcdDigits (s.reg x)) with ⟨h | h, hw⟩ | ⟨-, h, hw⟩
  · simp [bcdDigits] at h
  · exact .inl ⟨h, by simp only [exec, execLdBVx, hw]⟩
  · exact .inr ⟨h, by simp only [exec, execLdBVx, hw]⟩

/-- Everything `Fx55` can do (47_index_memory.md R244). -/
theorem exec_ldMemVx_cases (x : Reg) (s : State) :
    s.baseAddr + (x.val + 1) ≤ 0x1000 ∧
        exec (.ldMemVx x) s =
          .next { s with
            mem := Memory.writeAll s.mem s.baseAddr (s.regsUpTo x)
            i := s.i + BitVec.ofNat 16 (x.val + 1) } ∨
      0x1000 < s.baseAddr + (x.val + 1) ∧
        exec (.ldMemVx x) s =
          .next (s.raiseAddress (encode (.ldMemVx x)) (max s.baseAddr 0x1000)) := by
  rcases writeRange_cases s s.baseAddr (s.regsUpTo x) with ⟨h | h, hw⟩ | ⟨-, h, hw⟩
  · exact absurd (congrArg List.length h) (by simp)
  · exact .inl ⟨by simpa using h, by simp only [exec, execLdMemVx, hw]; rfl⟩
  · exact .inr ⟨by simpa using h, by simp only [exec, execLdMemVx, hw]⟩

/-- Everything `Fx65` can do (47_index_memory.md R245). -/
theorem exec_ldVxMem_cases (x : Reg) (s : State) :
    s.baseAddr + (x.val + 1) ≤ 0x1000 ∧
        exec (.ldVxMem x) s =
          .next { s with
            v := (s.loadRegs 0 (Memory.bytes s.mem s.baseAddr (x.val + 1))).v
            i := s.i + BitVec.ofNat 16 (x.val + 1) } ∨
      0x1000 < s.baseAddr + (x.val + 1) ∧
        exec (.ldVxMem x) s =
          .next (s.raiseAddress (encode (.ldVxMem x)) (max s.baseAddr 0x1000)) := by
  rcases readRange_cases s s.baseAddr (x.val + 1) with ⟨h | h, hr⟩ | ⟨-, h, hr⟩
  · omega
  · refine .inl ⟨h, ?_⟩
    simp only [exec, execLdVxMem, hr]
    rw [loadRegs_eq]
    rfl
  · exact .inr ⟨h, by simp only [exec, execLdVxMem, hr]⟩

/-- Every meaning answers a next state: a fault of the spec is taken, never an outcome. -/
theorem exec_next (i : Instr) (s : State) : ∃ t, exec i s = .next t := by
  cases i
  case ret => rcases exec_ret_cases s with ⟨t, rest, -, h⟩ | ⟨-, h⟩ <;> exact ⟨_, h⟩
  case call nnn => rcases exec_call_cases nnn s with ⟨-, h⟩ | ⟨-, h⟩ <;> exact ⟨_, h⟩
  case drwVxVyN x y n => rcases exec_drw_cases x y n s with ⟨-, h⟩ | ⟨-, -, h⟩ <;> exact ⟨_, h⟩
  case ldBVx x => rcases exec_ldBVx_cases x s with ⟨-, h⟩ | ⟨-, h⟩ <;> exact ⟨_, h⟩
  case ldMemVx x => rcases exec_ldMemVx_cases x s with ⟨-, h⟩ | ⟨-, h⟩ <;> exact ⟨_, h⟩
  case ldVxMem x => rcases exec_ldVxMem_cases x s with ⟨-, h⟩ | ⟨-, h⟩ <;> exact ⟨_, h⟩
  all_goals exact ⟨_, rfl⟩

/-- The debug port adds a snapshot or nothing. -/
theorem expose_eq (s : State) (w : Option Word) :
    s.expose w = { s with debugOut := (s.expose w).debugOut } := by
  unfold State.expose
  split <;> rfl

@[simp] theorem expose_off {s : State} (h : s.cfg.debugMode = false) (w : Option Word) :
    s.expose w = s := by
  simp [State.expose, h]

/-- Everything a cycle can do (40_cycle_and_control_flow.md R120 steps 3 to 8): the fetch faults, the
word selects no row, or the body of the row's instruction runs. -/
theorem cycle_cases (s : State) :
    (0xFFE < s.pc.toNat ∧
        cycle s = .next ((s.raiseFetch (max s.pc.toNat 0x1000)).expose none)) ∨
      ∃ w, s.pc.toNat ≤ 0xFFE ∧
        w = wordOfBytes (s.readByte s.pc.toNat) (s.readByte (s.pc.toNat + 1)) ∧
        ((∃ e, decodeWord w = .error e ∧
            cycle s =
              .next (((s.setPc (s.pc + 2)).raiseBody .decodeFault w 0).expose (some w))) ∨
          ∃ i t, decodeWord w = .ok i ∧ exec i (s.setPc (s.pc + 2)) = .next t ∧
            cycle s = .next (t.expose (some w))) := by
  rcases readWord_cases s s.pc.toNat with ⟨h, hw⟩ | ⟨h, hw⟩
  · refine .inr ⟨_, h, rfl, ?_⟩
    cases hd : decodeWord (wordOfBytes (s.readByte s.pc.toNat) (s.readByte (s.pc.toNat + 1))) with
    | error e => exact .inl ⟨e, rfl, by simp only [cycle, hw, dispatch, hd, mapNext]⟩
    | ok i =>
      obtain ⟨t, ht⟩ := exec_next i (s.setPc (s.pc + 2))
      exact .inr ⟨i, t, rfl, ht, by simp only [cycle, hw, dispatch, hd, ht, mapNext]⟩
  · exact .inl ⟨h, by simp only [cycle, hw]⟩

/-- Everything the engine's turn can do: nothing in a terminal state, a refusal of a configuration
out of range, the two pending events, a cycle, or a turn in a key wait. -/
theorem engineTurn_cases (s : State) :
    (s.run ≠ .running ∧ engineTurn s = .next s) ∨
      (s.run = .running ∧ ¬ s.cfg.valid ∧ engineTurn s = .refused .configurationOutOfRange) ∨
      (s.run = .running ∧ s.cfg.valid ∧
        ((s.phase = .fetch ∧ s.abortPending = true ∧
            engineTurn s = .next (s.setRun .aborted)) ∨
          (s.phase = .fetch ∧ s.abortPending = false ∧ s.haltPending = true ∧
            engineTurn s = .next (s.setRun .halted)) ∨
          (s.phase = .fetch ∧ s.abortPending = false ∧ s.haltPending = false ∧
            engineTurn s = cycle s) ∨
          ∃ r, s.phase = .waitKey r ∧ engineTurn s = .next (s.waitTurn r))) := by
  unfold engineTurn
  cases hr : s.run with
  | halted => exact .inl ⟨by simp, rfl⟩
  | faulted => exact .inl ⟨by simp, rfl⟩
  | aborted => exact .inl ⟨by simp, rfl⟩
  | running =>
    by_cases hv : s.cfg.valid
    · refine .inr (.inr ⟨rfl, hv, ?_⟩)
      simp only [if_pos hv]
      cases hp : s.phase with
      | waitKey r => exact .inr (.inr (.inr ⟨r, rfl, rfl⟩))
      | fetch =>
        cases ha : s.abortPending with
        | true => exact .inl ⟨rfl, rfl, by simp [fetchTurn, ha]⟩
        | false =>
          cases hh : s.haltPending with
          | true => exact .inr (.inl ⟨rfl, rfl, rfl, by simp [fetchTurn, ha, hh]⟩)
          | false => exact .inr (.inr (.inl ⟨rfl, rfl, rfl, by simp [fetchTurn, ha, hh]⟩))
    · exact .inr (.inl ⟨rfl, hv, by simp only [if_neg hv]⟩)

/-! ### The move that comes next -/

theorem nextMove_cons {s : State} {m : Move} {rest : List Move} (h : s.moves = m :: rest) :
    s.nextMove = m := by
  simp only [State.nextMove, h]

theorem nextMove_quiet {s : State} (h : s.moves = []) (hq : s.supply = .quiet) :
    s.nextMove = .engine := by
  simp only [State.nextMove, h, hq]

theorem nextMove_free {s : State} {k : Nat} (h : s.moves = []) (hf : s.supply = .free k) :
    s.nextMove = Config.freeMove k := by
  simp only [State.nextMove, h, hf]

theorem afterMove_cons {s : State} {m : Move} {rest : List Move} (h : s.moves = m :: rest) :
    s.afterMove = { s with moves := rest } := by
  simp [State.afterMove, h]

theorem afterMove_nil {s : State} (h : s.moves = []) :
    s.afterMove = { s with supply := s.supply.next } := by
  simp [State.afterMove, h]

section
variable (s : State)
@[simp] theorem afterMove_v : s.afterMove.v = s.v := rfl
@[simp] theorem afterMove_pc : s.afterMove.pc = s.pc := rfl
@[simp] theorem afterMove_i : s.afterMove.i = s.i := rfl
@[simp] theorem afterMove_stack : s.afterMove.stack = s.stack := rfl
@[simp] theorem afterMove_mem : s.afterMove.mem = s.mem := rfl
@[simp] theorem afterMove_disp : s.afterMove.disp = s.disp := rfl
@[simp] theorem afterMove_dt : s.afterMove.dt = s.dt := rfl
@[simp] theorem afterMove_st : s.afterMove.st = s.st := rfl
@[simp] theorem afterMove_run : s.afterMove.run = s.run := rfl
@[simp] theorem afterMove_phase : s.afterMove.phase = s.phase := rfl
@[simp] theorem afterMove_fault : s.afterMove.fault = s.fault := rfl
@[simp] theorem afterMove_keyq : s.afterMove.keyq = s.keyq := rfl
@[simp] theorem afterMove_abortPending : s.afterMove.abortPending = s.abortPending := rfl
@[simp] theorem afterMove_haltPending : s.afterMove.haltPending = s.haltPending := rfl
@[simp] theorem afterMove_cfg : s.afterMove.cfg = s.cfg := rfl
@[simp] theorem afterMove_now : s.afterMove.now = s.now := rfl
@[simp] theorem afterMove_frames : s.afterMove.frames = s.frames := rfl
@[simp] theorem afterMove_debugOut : s.afterMove.debugOut = s.debugOut := rfl
@[simp] theorem afterMove_freeCtr : s.afterMove.freeCtr = s.freeCtr := rfl
@[simp] theorem afterMove_reg (y : Reg) : s.afterMove.reg y = s.reg y := rfl
@[simp] theorem afterMove_readByte (a : Nat) : s.afterMove.readByte a = s.readByte a := rfl
end

/-- A step delivers the move that comes next. -/
theorem step_eq (s : State) : step s = deliver s.nextMove s.afterMove := rfl

/-- A step in which the engine moves is the engine's turn. -/
theorem step_engine {s : State} (h : s.nextMove = .engine) : step s = engineTurn s.afterMove := by
  rw [step_eq, h, deliver]

end Sys2Proof.Machine
end

