-- ==== Sys2Proof/Tests/Slice0.lean ====
section
/-! SUPPORT. The model's own tests: a word written out for every constructor, ill-formed terms that
WellFormed refuses, one step per instruction on a small state (expected values from
95_test_vectors.md, the vector's number in the docstring), and for every obligation with hypotheses a
witness that meets them. -/

namespace Sys2Proof.Tests

open Sys2Proof Sys2Proof.Machine

/-! ### Helpers -/

/-- The reset state with two bytes at 0x200. -/
def boot (hi lo : Byte) : State := State.reset.placeBytes 0x200 [hi, lo]

/-- Some registers set. -/
def withRegs (s : State) (rs : List (Reg × Byte)) : State :=
  rs.foldl (fun u p => u.setReg p.1 p.2) s

/-- Is the outcome a next state? -/
def isNext : Result → Bool
  | .next _ => true
  | .fault _ => false
  | .refused _ => false

/-- The next state, where there is one. -/
def nextOr (d : State) : Result → State
  | .next t => t
  | .fault _ => d
  | .refused _ => d

/-- The state after one step. -/
def after (s : State) : State := nextOr s (step s)

theorem next_of_isNext {r : Result} (d : State) (h : isNext r = true) : r = .next (nextOr d r) := by
  cases r with
  | next t => rfl
  | fault e => cases h
  | refused e => cases h

/-- A fault record of a body. -/
def record (cause : FaultCause) (addr w info : Word) : Option FaultRecord :=
  some { cause := cause, addr := addr, word := some w, info := info }

/-! ### WellFormed: each check, with a term it refuses and one it lets pass -/

theorem test_wf_refuses_sys_0E0 : (Instr.sys 0x0E0).wf = false := by decide
theorem test_wf_refuses_sys_0EE : (Instr.sys 0x0EE).wf = false := by decide
theorem test_wf_admits_sys_0E1 : (Instr.sys 0x0E1).wf = true := by decide

/-! ### Decode: one word per constructor, written out nibble by nibble from 30_encoding.md R96 -/

theorem test_decode_cls : decodeWord 0b0000000011100000#16 = .ok .cls := rfl
theorem test_decode_ret : decodeWord 0b0000000011101110#16 = .ok .ret := rfl
theorem test_decode_sys : decodeWord 0b0000000100100011#16 = .ok (.sys 0x123) := rfl
theorem test_decode_jp : decodeWord 0b0001001000110100#16 = .ok (.jp 0x234) := rfl
theorem test_decode_call : decodeWord 0b0010101010111100#16 = .ok (.call 0xABC) := rfl
theorem test_decode_seVxNn : decodeWord 0b0011111100000001#16 = .ok (.seVxNn 15 0x01) := rfl
theorem test_decode_sneVxNn : decodeWord 0b0100101000010000#16 = .ok (.sneVxNn 10 0x10) := rfl
theorem test_decode_seVxVy : decodeWord 0b0101000100100000#16 = .ok (.seVxVy 1 2) := rfl
theorem test_decode_ldVxNn : decodeWord 0b0110101000000111#16 = .ok (.ldVxNn 10 0x07) := rfl
theorem test_decode_addVxNn : decodeWord 0b0111000111111111#16 = .ok (.addVxNn 1 0xFF) := rfl
theorem test_decode_ldVxVy : decodeWord 0b1000000100100000#16 = .ok (.ldVxVy 1 2) := rfl
theorem test_decode_orVxVy : decodeWord 0b1000000100100001#16 = .ok (.orVxVy 1 2) := rfl
theorem test_decode_andVxVy : decodeWord 0b1000000100100010#16 = .ok (.andVxVy 1 2) := rfl
theorem test_decode_xorVxVy : decodeWord 0b1000001101000011#16 = .ok (.xorVxVy 3 4) := rfl
theorem test_decode_addVxVy : decodeWord 0b1000101010110100#16 = .ok (.addVxVy 10 11) := rfl
theorem test_decode_subVxVy : decodeWord 0b1000000000010101#16 = .ok (.subVxVy 0 1) := rfl
theorem test_decode_shrVxVy : decodeWord 0b1000000100100110#16 = .ok (.shrVxVy 1 2) := rfl
theorem test_decode_subnVxVy : decodeWord 0b1000000000010111#16 = .ok (.subnVxVy 0 1) := rfl
theorem test_decode_shlVxVy : decodeWord 0b1000000100101110#16 = .ok (.shlVxVy 1 2) := rfl
theorem test_decode_sneVxVy : decodeWord 0b1001000100100000#16 = .ok (.sneVxVy 1 2) := rfl
theorem test_decode_ldINnn : decodeWord 0b1010001100000000#16 = .ok (.ldINnn 0x300) := rfl
theorem test_decode_jpV0Nnn : decodeWord 0b1011111111111111#16 = .ok (.jpV0Nnn 0xFFF) := rfl
theorem test_decode_rndVxNn : decodeWord 0b1100010110100101#16 = .ok (.rndVxNn 5 0xA5) := rfl
theorem test_decode_drwVxVyN : decodeWord 0b1101000100100011#16 = .ok (.drwVxVyN 1 2 3) := rfl
theorem test_decode_skpVx : decodeWord 0b1110001010011110#16 = .ok (.skpVx 2) := rfl
theorem test_decode_sknpVx : decodeWord 0b1110001010100001#16 = .ok (.sknpVx 2) := rfl
theorem test_decode_ldVxDt : decodeWord 0b1111111100000111#16 = .ok (.ldVxDt 15) := rfl
theorem test_decode_ldVxK : decodeWord 0b1111001100001010#16 = .ok (.ldVxK 3) := rfl
theorem test_decode_ldDtVx : decodeWord 0b1111000000010101#16 = .ok (.ldDtVx 0) := rfl
theorem test_decode_ldStVx : decodeWord 0b1111010000011000#16 = .ok (.ldStVx 4) := rfl
theorem test_decode_addIVx : decodeWord 0b1111001000011110#16 = .ok (.addIVx 2) := rfl
theorem test_decode_ldFVx : decodeWord 0b1111000000101001#16 = .ok (.ldFVx 0) := rfl
theorem test_decode_ldBVx : decodeWord 0b1111000000110011#16 = .ok (.ldBVx 0) := rfl
theorem test_decode_ldMemVx : decodeWord 0b1111001001010101#16 = .ok (.ldMemVx 2) := rfl
theorem test_decode_ldVxMem : decodeWord 0b1111010101100101#16 = .ok (.ldVxMem 5) := rfl
theorem test_decode_brk : decodeWord 0b1111111111111111#16 = .ok .brk := rfl
/-- E9 to E14, one word per class. -/
theorem test_decode_refuses :
    decodeWord 0x5121#16 = .error .family5 ∧ decodeWord 0x9AB7#16 = .error .family9 ∧
    decodeWord 0x812F#16 = .error .family8 ∧ decodeWord 0xE29F#16 = .error .familyE ∧
    decodeWord 0xF130#16 = .error .familyF ∧ decodeWord 0xF0FF#16 = .error .familyF :=
  ⟨rfl, rfl, rfl, rfl, rfl, rfl⟩
/-- The byte at the lower address is the high byte (20_memory.md R67). -/
theorem test_decode_byte_order : decode [0x6A, 0x07, 0xFF] = .ok (.ldVxNn 10 0x07, [0xFF]) := rfl
theorem test_decodeTableWord : decodeTableWord 16 0xD123 = some (.drwVxVyN 1 2 3) := rfl
theorem test_withFetchWord_runs :
    (after (State.reset.withFetchWord 16 0x6A07)).reg 10 = 0x07 := by decide

/-! ### One step per instruction -/

/-- T100 -/
theorem test_cls :
    let t := after { withRegs (boot 0x00 0xE0) [(15, 0x01)] with
                     disp := Display.flip (Vector.replicate 32 0) 63 31 }
    t.disp = Vector.replicate 32 0 ∧ t.reg 15 = 0x01 ∧ t.frames.length = 1 := by decide

/-- T4 -/
theorem test_ret :
    let t := after { State.reset.placeBytes 0xABC [0x00, 0xEE] with pc := 0x0ABC, stack := [0x0202] }
    t.pc = 0x0202 ∧ t.stack = [] := by decide

/-- T5 -/
theorem test_ret_underflow :
    let t := after (boot 0x00 0xEE)
    t.run = .faulted ∧ t.fault = record .stackUnderflow 0x0200 0x00EE 0 ∧ t.pc = 0x0202 := by
  decide

/-- T8 -/
theorem test_sys :
    let t := after (boot 0x01 0x23)
    t.run = .halted ∧ t.pc = 0x0202 ∧ t.fault = none := by decide

/-- T2 -/
theorem test_jp : (after (boot 0x12 0x01)).pc = 0x0201 := by decide

/-- T3 -/
theorem test_call :
    let t := after (boot 0x2A 0xBC)
    t.pc = 0x0ABC ∧ t.stack = [0x0202] := by decide

/-- T6 -/
theorem test_call_overflow :
    let t := after { boot 0x23 0x00 with stack := List.replicate 16 0x0202 }
    t.fault = record .stackOverflow 0x0200 0x2300 0 ∧ t.pc = 0x0202 ∧ t.stack.length = 16 := by
  decide

/-- T22, T21 -/
theorem test_seVxNn :
    (after (withRegs (boot 0x3F 0x01) [(15, 0x01)])).pc = 0x0204 ∧
    (after (withRegs (boot 0x31 0x00) [(1, 0x04)])).pc = 0x0202 := by decide

/-- T23, T24 -/
theorem test_sneVxNn :
    (after (withRegs (boot 0x4A 0x10) [(10, 0x10)])).pc = 0x0202 ∧
    (after (withRegs (boot 0x4A 0x10) [(10, 0x11)])).pc = 0x0204 := by decide

/-- T25, T26 -/
theorem test_seVxVy :
    (after (withRegs (boot 0x51 0x20) [(1, 0x7F), (2, 0x7F)])).pc = 0x0204 ∧
    (after (withRegs (boot 0x51 0x20) [(1, 0x7F), (2, 0x80)])).pc = 0x0202 := by decide

/-- T28, T29 -/
theorem test_sneVxVy :
    (after (withRegs (boot 0x91 0x20) [(1, 0x01), (2, 0x02)])).pc = 0x0204 ∧
    (after (boot 0x93 0x30)).pc = 0x0202 := by decide

/-- T35 -/
theorem test_ldVxNn :
    let t := after (boot 0x60 0xEA)
    t.reg 0 = 0xEA ∧ t.pc = 0x0202 := by decide

/-- T38, T39 -/
theorem test_addVxNn :
    (let t := after (withRegs (boot 0x71 0x01) [(1, 0xFF), (15, 0x55)])
     t.reg 1 = 0x00 ∧ t.reg 15 = 0x55) ∧
    (after (withRegs (boot 0x7F 0x02) [(15, 0xFF)])).reg 15 = 0x01 := by decide

/-- T45 -/
theorem test_ldVxVy :
    let t := after (withRegs (boot 0x81 0x20) [(2, 0x9C)])
    t.reg 1 = 0x9C ∧ t.reg 2 = 0x9C := by decide

/-- T46 -/
theorem test_orVxVy :
    let t := after (withRegs (boot 0x81 0x21) [(1, 0xF0), (2, 0x0F), (15, 0x01)])
    t.reg 1 = 0xFF ∧ t.reg 15 = 0x01 := by decide

/-- T47 -/
theorem test_andVxVy :
    let t := after (withRegs (boot 0x81 0x22) [(1, 0xF3), (2, 0x3F), (15, 0x01)])
    t.reg 1 = 0x33 ∧ t.reg 15 = 0x01 := by decide

/-- T48, T49 -/
theorem test_xorVxVy :
    (after (withRegs (boot 0x81 0x23) [(1, 0xFF), (2, 0x0F)])).reg 1 = 0xF0 ∧
    (after (withRegs (boot 0x83 0x33) [(3, 0x5A)])).reg 3 = 0x00 := by decide

/-- T51 -/
theorem test_addVxVy :
    let t := after (withRegs (boot 0x80 0x14) [(0, 0x80), (1, 0x7F), (15, 0x01)])
    t.reg 0 = 0xFF ∧ t.reg 15 = 0x00 := by decide

/-- T54: the flag is written last. -/
theorem test_addVxVy_into_flag :
    (after (withRegs (boot 0x8F 0x14) [(15, 0x80), (1, 0x90)])).reg 15 = 0x01 := by decide

/-- T56, T58 -/
theorem test_subVxVy :
    (let t := after (withRegs (boot 0x80 0x15) [(0, 0x05), (1, 0x0A)])
     t.reg 0 = 0xFB ∧ t.reg 15 = 0x00) ∧
    (let t := after (withRegs (boot 0x80 0x15) [(0, 0x33), (1, 0x33)])
     t.reg 0 = 0x00 ∧ t.reg 15 = 0x01) := by decide

/-- T63 -/
theorem test_shrVxVy :
    let t := after (withRegs (boot 0x81 0x26) [(1, 0xAA), (2, 0x05)])
    t.reg 1 = 0x02 ∧ t.reg 15 = 0x01 ∧ t.reg 2 = 0x05 := by decide

/-- T65 -/
theorem test_shrVxVy_into_flag :
    (after (withRegs (boot 0x8F 0x26) [(2, 0x04), (15, 0x01)])).reg 15 = 0x00 := by decide

/-- T62 -/
theorem test_subnVxVy :
    let t := after (withRegs (boot 0x80 0x17) [(0, 0x0A), (1, 0x05)])
    t.reg 0 = 0xFB ∧ t.reg 15 = 0x00 := by decide

/-- T68 -/
theorem test_shlVxVy :
    let t := after (withRegs (boot 0x81 0x2E) [(2, 0x40), (15, 0x01)])
    t.reg 1 = 0x80 ∧ t.reg 15 = 0x00 ∧ t.reg 2 = 0x40 := by decide

/-- T40 -/
theorem test_ldINnn : (after { boot 0xA3 0x00 with i := 0xFFFF }).i = 0x0300 := by decide

/-- T13 -/
theorem test_jpV0Nnn :
    let t := after (withRegs (boot 0xBF 0xFF) [(0, 0xFF)])
    t.pc = 0x10FE ∧ t.run = .running := by decide

/-- T42 -/
theorem test_rndVxNn : (after (boot 0xC5 0xA5)).reg 5 = 0xA5 := by decide

/-- T107: the one set bit is clipped, so it neither wraps nor collides. -/
theorem test_drwVxVyN_clips :
    let t := after { (withRegs (boot 0xD0 0x11) [(0, 0x3F), (15, 0x01)]).placeBytes 0x300 [0x40] with
                     i := 0x0300, disp := Display.flip (Vector.replicate 32 0) 0 1 }
    t.disp = Display.flip (Vector.replicate 32 0) 0 1 ∧ t.reg 15 = 0x00 := by decide

/-- T102 -/
theorem test_drwVxVyN_collides :
    let t := after { (boot 0xD0 0x11).placeBytes 0x300 [0xC0] with
                     i := 0x0300, disp := Display.flip (Vector.replicate 32 0) 0 0 }
    Display.cell t.disp 0 = false ∧ Display.cell t.disp 1 = true ∧ t.reg 15 = 0x01 := by
  decide

/-- T85, T88 -/
theorem test_skpVx :
    (let t := after { withRegs (boot 0xE2 0x9E) [(2, 0x05)] with keyq := [3, 5] }
     t.pc = 0x0204 ∧ t.keyq = []) ∧
    (let t := after { withRegs (boot 0xE2 0x9E) [(2, 0x15)] with keyq := [5] }
     t.pc = 0x0202 ∧ t.keyq = []) := by decide

/-- T90, T89 -/
theorem test_sknpVx :
    (let t := after { withRegs (boot 0xE2 0xA1) [(2, 0x05)] with keyq := [5, 5, 1] }
     t.pc = 0x0202 ∧ t.keyq = []) ∧
    (after (withRegs (boot 0xE2 0xA1) [(2, 0x05)])).pc = 0x0204 := by decide

/-- T75 -/
theorem test_ldVxDt_exhausted :
    let t := after { boot 0xF1 0x07 with dt := { start := 0x03, ref := some 1000 }, now := 1048 }
    t.reg 1 = 0x00 ∧ t.dt.ref = none := by decide

/-- T78 -/
theorem test_ldVxDt_scaled :
    let s := { boot 0xF1 0x07 with dt := { start := 0x03, ref := some 0 }, now := 32,
                                   cfg := { Config.default with timeScale := 2 } }
    (after s).reg 1 = 0x02 ∧ timerPeek s.dt 32 = 0x01 := by decide

/-- T92 -/
theorem test_ldVxK_waits :
    let t := after (boot 0xF3 0x0A)
    t.pc = 0x0202 ∧ t.phase = .waitKey 3 ∧ (after t).phase = .waitKey 3 := by decide

/-- T93 -/
theorem test_ldVxK_completes :
    let t := after (after { boot 0xF3 0x0A with keyq := [7, 2] })
    t.reg 3 = 0x07 ∧ t.keyq = [2] ∧ t.phase = .fetch ∧ t.pc = 0x0202 := by decide

/-- T71 -/
theorem test_ldDtVx :
    (after { withRegs (boot 0xF0 0x15) [(0, 0x03)] with now := 1000 }).dt =
      { start := 0x03, ref := some 1000 } := by decide

/-- T80 -/
theorem test_ldStVx :
    let t := after { withRegs (boot 0xF4 0x18) [(4, 0x10)] with now := 7 }
    t.st = { start := 0x10, ref := some 7 } ∧ timerPeek t.st 167 = 6 := by decide

/-- T122 -/
theorem test_addIVx :
    (after { withRegs (boot 0xF2 0x1E) [(2, 0x01)] with i := 0xFFFF }).i = 0x0000 := by
  decide

/-- T125 -/
theorem test_ldFVx : (after (withRegs (boot 0xF0 0x29) [(0, 0xFF)])).i = 0x004B := by
  decide

/-- T126 -/
theorem test_ldBVx :
    let t := after { withRegs (boot 0xF0 0x33) [(0, 0xEA)] with i := 0x0300 }
    t.readByte 0x300 = 0x02 ∧ t.readByte 0x301 = 0x03 ∧ t.readByte 0x302 = 0x04 ∧
      t.i = 0x0300 := by decide

/-- T130 -/
theorem test_ldBVx_fault :
    let t := after { withRegs (boot 0xF0 0x33) [(0, 0x64)] with i := 0x0FFE }
    t.fault = record .addressFault 0x0200 0xF033 0x1000 ∧ t.readByte 0xFFE = 0x00 := by
  decide

/-- T132 -/
theorem test_ldMemVx :
    let t := after { withRegs (boot 0xF2 0x55) [(0, 0x0A), (1, 0x0B), (2, 0x0C), (3, 0x77)] with
                     i := 0x0400 }
    t.readByte 0x400 = 0x0A ∧ t.readByte 0x402 = 0x0C ∧ t.readByte 0x403 = 0x00 ∧
      t.i = 0x0403 := by decide

/-- T135 -/
theorem test_ldMemVx_fault :
    let t := after { boot 0xFF 0x55 with i := 0x0FF1 }
    t.fault = record .addressFault 0x0200 0xFF55 0x1000 ∧ t.i = 0x0FF1 := by decide

/-- T136 -/
theorem test_ldVxMem :
    let t := after { (withRegs (boot 0xF2 0x65) [(3, 0x99)]).placeBytes 0x300 [2, 3, 4] with
                     i := 0x0300 }
    t.reg 0 = 0x02 ∧ t.reg 2 = 0x04 ∧ t.reg 3 = 0x99 ∧ t.i = 0x0303 := by decide

/-- T139 -/
theorem test_ldVxMem_fault :
    (after { boot 0xF0 0x65 with i := 0x1000 }).fault =
      record .addressFault 0x0200 0xF065 0x1000 := by decide

/-- T9 -/
theorem test_brk :
    let t := after (boot 0xFF 0xFF)
    t.run = .halted ∧ t.pc = 0x0202 := by decide

/-! ### The cycle, events, resets -/

/-- T17 -/
theorem test_illegal_word_faults :
    let t := after (boot 0x51 0x21)
    t.fault = record .decodeFault 0x0200 0x5121 0 ∧ t.pc = 0x0202 := by decide

/-- T16 -/
theorem test_fetch_at_0FFF_faults :
    let t := after { State.reset with pc := 0x0FFF }
    t.fault = some { cause := .addressFault, addr := 0x0FFF, word := none, info := 0x1000 } ∧
      t.pc = 0x0FFF := by decide

/-- T11 -/
theorem test_interrupt_first :
    let t := after { boot 0x6A 0x07 with abortPending := true, haltPending := true }
    t.run = .aborted ∧ t.pc = 0x0200 ∧ t.reg 10 = 0x00 := by decide

/-- T94 -/
theorem test_interrupt_in_wait :
    let t := after { State.reset with pc := 0x0202, phase := .waitKey 3, moves := [.interrupt] }
    let u := after t
    u.run = .aborted ∧ u.reg 3 = 0x00 ∧ u.pc = 0x0202 ∧ u.phase = .waitKey 3 := by decide

/-- 45_keypad.md R201: with the list used up a free supply gives the next move, and the one after it
is the next of the sequence. -/
theorem test_free_supply :
    let s := { State.reset with supply := .free 3 }
    s.nextMove = Config.freeMove 3 ∧ s.afterMove.nextMove = Config.freeMove 4 := ⟨rfl, rfl⟩

/-- T149, in part -/
theorem test_reload :
    let t := after { withRegs State.reset [(3, 0x09)] with
                     mem := [(0x000, 0x00), (0x300, 0x55)], stack := [1, 2],
                     moves := [.reset .reload [0x00, 0xE0]] }
    t.readByte 0x000 = 0x00 ∧ t.readByte 0x300 = 0x00 ∧ t.readByte 0x201 = 0xE0 ∧
      t.reg 3 = 0x00 ∧ t.stack = [] := by decide

/-- T146: the empty ROM runs `0000` first. -/
theorem test_reset_runs_sys :
    let t := after State.reset
    t.run = .halted ∧ t.pc = 0x0202 := by decide

/-! ### Witnesses: states and operands that meet the hypotheses of each obligation -/

theorem step_next {s : State} (h : isNext (step s) = true) : step s = .next (after s) :=
  next_of_isNext s h

/-- `boot` runs a cycle, whatever `V`, `I`, stack, RAM, timers and keys stand in it. -/
theorem boot_ready (hi lo : Byte) : (boot hi lo).CycleReady :=
  ⟨rfl, rfl, rfl, show Config.default.valid by decide, rfl, rfl⟩

theorem witness_DecodeOfEncodeGivesTheInstruction :
    (Instr.sys 0x0E1).wf = true ∧ (Instr.drwVxVyN 15 15 15).wf = true := by decide

theorem witness_EncodeOfDecodeGivesTheWord :
    decodeWord 0x8AB4#16 = .ok (.addVxVy 10 11) ∧ decodeWord 0x00EF#16 = .ok (.sys 0x0EF) :=
  ⟨rfl, rfl⟩

/-- Row 0 takes 00E0 and row 2 leaves it. -/
theorem witness_DecodeFollowsTheOpcodeTable :
    selectsRow 0x00E0#16 0 ∧ ¬ selectsRow 0x00E0#16 2 ∧ selectsRow 0x00E1#16 2 := by
  refine ⟨⟨_, rfl, by decide, by decide⟩, ?_, ⟨_, rfl, by decide, fun _ => by decide⟩⟩
  rintro ⟨r, -, -, h⟩
  exact (h rfl).1 rfl

/-- The first word, at 0x200, and the last place a word fits, 0xFFE. -/
theorem witness_StepRunsTheFetchedInstruction :
    ((boot 0x6A 0x07).CycleReady ∧ (boot 0x6A 0x07).pc.toNat ≤ 0xFFE ∧
      decode [(boot 0x6A 0x07).readByte 0x200, (boot 0x6A 0x07).readByte 0x201] =
        .ok (.ldVxNn 10 0x07, [])) ∧
    (let s := { State.reset.placeBytes 0xFFE [0x6A, 0x07] with pc := 0x0FFE }
     s.CycleReady ∧ s.pc.toNat ≤ 0xFFE ∧
       decode [s.readByte 0xFFE, s.readByte 0xFFF] = .ok (.ldVxNn 10 0x07, [])) :=
  ⟨⟨boot_ready _ _, by decide, rfl⟩,
    ⟨⟨rfl, rfl, rfl, by decide, rfl, rfl⟩, by decide, rfl⟩⟩

theorem witness_WordOfNoRowFaults :
    (boot 0x51 0x21).CycleReady ∧ (boot 0x51 0x21).fetches 0x5121 ∧
      ∀ k, ¬ selectsRow 0x5121#16 k := by
  refine ⟨boot_ready _ _, by unfold State.fetches; decide, ?_⟩
  rintro k ⟨r, hr, hm, -⟩
  have h : ∀ q ∈ opcodeTable, ¬ (0x5121#16 &&& q.mask = q.pattern) := by decide
  exact h r (List.mem_of_getElem? hr) hm

/-- Both arms of `info`: at 0x0FFF and at 0x1000 the lowest address outside is 0x1000. -/
theorem witness_FetchOutsideRamFaults :
    { State.reset with pc := 0x0FFF : State }.CycleReady ∧
    { State.reset with pc := 0x10FE : State }.CycleReady ∧
    0xFFF ≤ (0x0FFF#16).toNat ∧ 0xFFF < (0x10FE#16).toNat :=
  ⟨⟨rfl, rfl, rfl, by decide, rfl, rfl⟩, ⟨rfl, rfl, rfl, by decide, rfl, rfl⟩,
    by decide, by decide⟩

/-- One state for each clause: both events pending, the halt request alone. -/
theorem witness_InterruptComesBeforeHaltRequest :
    (let s := { boot 0x6A 0x07 with abortPending := true, haltPending := true }
     s.engineMoves ∧ s.run = .running ∧ s.phase = .fetch ∧ s.cfg.valid ∧
       s.abortPending = true) ∧
    (let s := { boot 0x6A 0x07 with haltPending := true, moves := [.engine] }
     s.engineMoves ∧ s.run = .running ∧ s.phase = .fetch ∧ s.cfg.valid ∧
       s.abortPending = false ∧ s.haltPending = true) :=
  ⟨⟨rfl, rfl, rfl, by decide, rfl⟩, ⟨rfl, rfl, rfl, by decide, rfl, rfl⟩⟩

/-- The hypotheses of `PcAfterEachInstruction`, for one state and word. -/
def PcHypotheses (s : State) (w : Word) (i : Instr) : Prop :=
  s.CycleReady ∧ s.fetches w ∧ decodeWord w = .ok i ∧ ∃ t, step s = .next t ∧ t.run ≠ .faulted

theorem pcHypotheses_of {s : State} {w : Word} {i : Instr} (hr : s.CycleReady) (hf : s.fetches w)
    (hd : decodeWord w = .ok i) (hn : isNext (step s) = true) (ht : (after s).run ≠ .faulted) :
    PcHypotheses s w i :=
  ⟨hr, hf, hd, after s, step_next hn, ht⟩

/-- A state for each arm: jump, call, `Bnnn`, return, a skip taken, a skip not taken. -/
theorem witness_PcAfterEachInstruction :
    PcHypotheses (boot 0x12 0x34) 0x1234 (.jp 0x234) ∧
    PcHypotheses (boot 0x2A 0xBC) 0x2ABC (.call 0xABC) ∧
    PcHypotheses (boot 0xBF 0xFF) 0xBFFF (.jpV0Nnn 0xFFF) ∧
    PcHypotheses { boot 0x00 0xEE with stack := [0x0304] } 0x00EE .ret ∧
    PcHypotheses (boot 0x30 0x00) 0x3000 (.seVxNn 0 0) ∧ (boot 0x30 0x00).skips (.seVxNn 0 0) ∧
    PcHypotheses (boot 0x30 0x01) 0x3001 (.seVxNn 0 1) ∧
    ¬ (boot 0x30 0x01).skips (.seVxNn 0 1) := by
  refine ⟨pcHypotheses_of (boot_ready _ _) ?_ rfl (by decide) (by decide),
    pcHypotheses_of (boot_ready _ _) ?_ rfl (by decide) (by decide),
    pcHypotheses_of (boot_ready _ _) ?_ rfl (by decide) (by decide),
    pcHypotheses_of ⟨rfl, rfl, rfl, by decide, rfl, rfl⟩ ?_ rfl (by decide) (by decide),
    pcHypotheses_of (boot_ready _ _) ?_ rfl (by decide) (by decide), ?_,
    pcHypotheses_of (boot_ready _ _) ?_ rfl (by decide) (by decide), ?_⟩
  all_goals first
    | (unfold State.fetches; decide)
    | (simp only [State.skips]; decide)

/-- T31: the last place a skip can stand; the skipped word is outside RAM. -/
theorem witness_SkippedWordIsNeverRun :
    let s := { State.reset.placeBytes 0xFFE [0x30, 0x00] with pc := 0x0FFE }
    s.CycleReady ∧ s.fetches 0x3000 ∧ decodeWord 0x3000#16 = .ok (.seVxNn 0 0) ∧
      s.skips (.seVxNn 0 0) := by
  refine ⟨⟨rfl, rfl, rfl, by decide, rfl, rfl⟩, by unfold State.fetches; decide, rfl, ?_⟩
  simp only [State.skips]
  decide

/-- One state for each clause: time passing, the configuration port, a key press arriving (T18). -/
theorem witness_TerminalStatesAreFinal :
    (let s := { State.reset with run := .faulted, moves := [.clock 16] }
     s.run ≠ .running ∧ s.nextMove = .clock 16) ∧
    (let s := { State.reset with run := .aborted, moves := [.configure Config.default] }
     s.run ≠ .running ∧ s.nextMove = .configure Config.default) ∧
    (let s := { State.reset with run := .halted, moves := [.key 5] }
     s.run ≠ .running ∧ s.noReset ∧ s.noConfigure ∧ ∀ ms, s.nextMove ≠ .clock ms) :=
  ⟨⟨by decide, rfl⟩, ⟨by decide, rfl⟩, ⟨by decide, nofun, nofun, nofun⟩⟩

/-- One state for each way the run state changes. -/
theorem witness_RunStateChangesOnlyByTheListedCauses :
    (let s := { State.reset with run := .halted, moves := [.reset .cold []] }
     step s = .next (after s) ∧ (after s).run ≠ s.run) ∧
    (step State.reset = .next (after State.reset) ∧ (after State.reset).run = .halted) ∧
    (let s := { State.reset with abortPending := true }
     step s = .next (after s) ∧ (after s).run = .aborted) ∧
    (step (boot 0x00 0xEE) = .next (after (boot 0x00 0xEE)) ∧
      (after (boot 0x00 0xEE)).run = .faulted) :=
  ⟨⟨step_next (by decide), by decide⟩, ⟨step_next (by decide), by decide⟩,
    ⟨step_next (by decide), by decide⟩, ⟨step_next (by decide), by decide⟩⟩

theorem reset_inv : State.reset.Inv :=
  ⟨by decide, by decide, nofun, by decide, ⟨nofun, nofun⟩, nofun⟩

/-- The reset state, and one with RAM, a record, a stack, a timer and an abort in a wait. -/
theorem witness_StepKeepsMachineSound :
    (State.reset.Inv ∧ step State.reset = .next (after State.reset)) ∧
    (let s := { State.reset with mem := [(0x300, 0x55)], stack := [0x0202], run := .aborted,
                                 dt := { start := 3, ref := some 7 }, now := 7,
                                 phase := .waitKey 3 }
     s.Inv ∧ step s = .next (after s)) :=
  ⟨⟨reset_inv, step_next (by decide)⟩,
    ⟨⟨by decide, by decide, nofun, nofun, ⟨fun r h => by cases h; decide, nofun⟩,
      fun _ _ => .inr rfl⟩, step_next (by decide)⟩⟩

/-- `pc` at its bound, with the highest return address on the stack. -/
theorem witness_StepKeepsPcWithinReach :
    let s := { State.reset with pc := 0x10FE, stack := [0x1000] }
    s.PcBounded ∧ step s = .next (after s) :=
  ⟨⟨by decide, fun t ht => by cases List.mem_singleton.1 ht; decide⟩, step_next (by decide)⟩

theorem witness_EventsOnlyReachTheirOwnState :
    ∀ m ∈ [Move.key 0xB, .interrupt, .haltRequest, .clock 16],
      { State.reset with moves := [m] : State }.run = .running ∧
      { State.reset with moves := [m] : State }.nextMove = m :=
  fun _ _ => ⟨rfl, rfl⟩

/-- The longest ROM (T147) and its last byte. -/
theorem witness_ColdResetLoadsTheRom :
    let rom : List Byte := List.replicate 3584 0x12
    let s := { State.reset with moves := [.reset .cold rom] }
    rom.length ≤ 3584 ∧ s.nextMove = .reset .cold rom ∧ 3583 < rom.length := by
  have h : (List.replicate 3584 (0x12 : Byte)).length = 3584 := List.length_replicate
  exact ⟨by omega, rfl, by omega⟩

/-- T149: RAM with a changed font byte. -/
theorem witness_ReloadLeavesTheFontBytes :
    let s := { State.reset with mem := [(0x000, 0x00), (0x300, 0x55)],
                                moves := [.reset .reload [0x00, 0xE0]] }
    s.ramCanonical ∧ [0x00#8, 0xE0#8].length ≤ 3584 ∧
      s.nextMove = .reset .reload [0x00, 0xE0] :=
  ⟨by decide, by decide, rfl⟩

theorem witness_ReloadIsColdResetWithIntactFont :
    let s := { State.reset with mem := [(0x050, 0x55)] }
    s.ramCanonical ∧ ∀ a, a < 0x050 → s.readByte a = ramDefault a := by
  refine ⟨by decide, fun a h => ?_⟩
  show (if 0x050 = a then _ else ramDefault a) = ramDefault a
  rw [if_neg (by omega)]

/-- T148: one byte too many, on a cold reset and on a reload. -/
theorem witness_OversizeRomFaultsAndRunsNoCycle :
    let rom : List Byte := List.replicate 3585 0
    3584 < rom.length ∧
      { State.reset with moves := [.reset .cold rom] : State }.nextMove = .reset .cold rom ∧
      (let s := { State.reset with mem := [(0x000, 0x00), (0x100, 0x55)],
                                   moves := [.reset .reload rom] }
       s.nextMove = .reset .reload rom ∧ s.ramCanonical) := by
  refine ⟨?_, rfl, rfl, show Memory.wf [(0x000, 0x00), (0x100, 0x55)] = true by decide⟩
  rw [List.length_replicate]
  omega

theorem witness_LoadLiteralIntoRegister :
    (boot 0x6A 0x07).CycleReady ∧ (boot 0x6A 0x07).fetches (encode (.ldVxNn 10 0x07)) :=
  ⟨boot_ready _ _, by unfold State.fetches; decide⟩

/-- The inner hypotheses of the statements about one destination register and `VF`. -/
theorem witness_registers_apart : (1 : Reg) ≠ 15 ∧ (0 : Reg) ≠ 1 ∧ (0 : Reg) ≠ 15 := by decide

/-- A full stack and one entry short of it. -/
theorem witness_CallPushesTheNextAddress :
    (let s := { State.reset with stack := List.replicate 15 0x0202 }
     s.stack.length ≠ s.cfg.stackCapacity) ∧
    (let s := { State.reset with stack := List.replicate 16 0x0202 }
     s.stack.length = s.cfg.stackCapacity) := by decide

theorem witness_ReturnPopsIntoPc :
    { State.reset with stack := [0x0304, 0x0202] : State }.stack = 0x0304 :: [0x0202] ∧
      State.reset.stack = [] := ⟨rfl, rfl⟩

/-- A routine at 0x206 that calls a routine at 0x20A, called from 0x200. -/
def nested : State :=
  State.reset.placeBytes 0x200
    [0x22, 0x06, 0x00, 0x00, 0x00, 0x00, 0x22, 0x0A, 0x00, 0xEE, 0x60, 0x01, 0x00, 0xEE]

theorem executes_cycle {s : State} {is : List Instr} {u : State} (w : Word) (i : Instr)
    (hs : s.CycleReady) (hw : s.fetches w) (hd : decodeWord w = .ok i)
    (hn : isNext (step s) = true) (h : Executes is (after s) u) : Executes (i :: is) s u :=
  .cycle w i hs hw hd (step_next hn) h

/-- A call nested in a call, with room on the stack. -/
theorem witness_NestedCallsReturnToTheirCaller :
    let body := [Instr.call 0x20A, .ldVxNn 0 1, .ret]
    let t := after (after (after (after (after nested))))
    Balanced body ∧ Executes (.call 0x206 :: (body ++ [.ret])) nested t ∧ t.run = .running := by
  refine ⟨.call 0x20A [.ldVxNn 0 1] [] (.plain _ _ nofun nofun .nil) .nil, ?_, by decide⟩
  refine executes_cycle 0x2206 _ ⟨rfl, rfl, rfl, by decide, rfl, rfl⟩ ?_ rfl (by decide) ?_
  · unfold State.fetches; decide
  refine executes_cycle 0x220A _ ⟨by decide, by decide, by decide, by decide, by decide, by decide⟩
    ?_ rfl (by decide) ?_
  · unfold State.fetches; decide
  refine executes_cycle 0x6001 _ ⟨by decide, by decide, by decide, by decide, by decide, by decide⟩
    ?_ rfl (by decide) ?_
  · unfold State.fetches; decide
  refine executes_cycle 0x00EE _ ⟨by decide, by decide, by decide, by decide, by decide, by decide⟩
    ?_ rfl (by decide) ?_
  · unfold State.fetches; decide
  refine executes_cycle 0x00EE _ ⟨by decide, by decide, by decide, by decide, by decide, by decide⟩
    ?_ rfl (by decide) (.done _)
  unfold State.fetches
  decide

/-- `n` = 0 with `I` outside RAM (T109), and the last sprite that fits (T112). -/
theorem witness_DrawXorsTheSpriteAtI :
    (let s := { State.reset with i := 0x1234 }
     (0x0#4).toNat = 0 ∨ s.i.toNat + (0x0#4).toNat ≤ 0x1000) ∧
    (let s := { State.reset with i := 0x0FFD }
     (0x3#4).toNat = 0 ∨ s.i.toNat + (0x3#4).toNat ≤ 0x1000) := by decide

/-- A buffered code (T85) and a register above 0x0F, which no press has (T88). -/
theorem witness_KeySkipsDrainTheBuffer :
    { withRegs State.reset [(2, 0x05)] with keyq := [3, 5] : State }.keyBuffered 2 ∧
    ¬ { withRegs State.reset [(2, 0x15)] with keyq := [5] : State }.keyBuffered 2 := by
  unfold State.keyBuffered
  decide

theorem witness_KeyWaitLoadsTheOldestPress :
    let s := { State.reset with keyq := [7, 2] }
    s.engineMoves ∧ s.run = .running ∧ s.cfg.valid ∧ s.abortPending = false ∧
      s.keyq = 7 :: [2] :=
  ⟨rfl, rfl, by decide, rfl, rfl⟩

/-- One state for each clause about the engine's turn: nothing buffered with and without the event, and
a key buffered with it; and a step of a wait with a key buffered. -/
theorem witness_OnlyKeyInterruptOrResetEndAWait :
    (∀ s ∈ [{ State.reset with phase := .waitKey 3, abortPending := true },
            { State.reset with phase := .waitKey 3 },
            { State.reset with phase := .waitKey 3, keyq := [7], abortPending := true }],
      s.run = .running ∧ s.phase = .waitKey 3 ∧ s.engineMoves ∧ s.cfg.valid) ∧
    (let s := { State.reset with phase := .waitKey 3, keyq := [7] }
     step s = .next (after s)) :=
  ⟨by decide, step_next (by decide)⟩

/-- An inactive timer, one with a tick left, one just exhausted (T73 to T75). -/
theorem witness_DelayReadIsTheDecayedValue :
    1 ≤ State.reset.cfg.timeScale ∧ State.reset.dt.ref = none ∧
    (∀ now ∈ [1047, 1048],
      { State.reset with dt := { start := 3, ref := some 1000 }, now := now : State }.dt.ref =
        some 1000) :=
  ⟨by decide, rfl, fun _ _ => rfl⟩

/-- Both clauses at the boundary `d div 16` = 3 of a timer set to 3. -/
theorem witness_TimerDecaysByWholeTicks :
    let s := withRegs State.reset [(0, 0x03)]
    s.cfg.timeScale = 1 ∧
      exec (.ldDtVx 0) s = .next { s with dt := { start := s.reg 0, ref := some s.now } } ∧
      48 / 16 ≤ (s.reg 0).toNat ∧ (s.reg 0).toNat ≤ 48 / 16 :=
  ⟨rfl, rfl, by decide, by decide⟩

theorem witness_DelayReadsNeverIncrease :
    let s := { State.reset with dt := { start := 3, ref := some 1000 }, now := 1016 }
    let u := nextOr s (exec (.ldVxDt 1) s)
    exec (.ldVxDt 1) s = .next u ∧
      exec (.ldVxDt 2) { u with now := u.now + 32 } =
        .next (nextOr s (exec (.ldVxDt 2) { u with now := u.now + 32 })) :=
  ⟨next_of_isNext _ (by decide), next_of_isNext _ (by decide)⟩

theorem witness_PeekAgainstMutatingRead :
    1 ≤ 2 ∧ Timer.off.ref = none ∧ { start := 3, ref := some 0 : Timer }.ref = some 0 :=
  ⟨by decide, rfl, rfl⟩

theorem witness_SoundTimerReachesNothing :
    (boot 0xF4 0x18).cfg.debugMode = false ∧ step (boot 0xF4 0x18) = .next (after (boot 0xF4 0x18)) :=
  ⟨rfl, step_next (by decide)⟩

theorem witness_DebugModeAndDelayReachNothing :
    let s := { boot 0x6A 0x07 with cfg := { Config.default with debugMode := true } }
    s.noConfigure ∧ step s = .next (after s) :=
  ⟨nofun, step_next (by decide)⟩

/-- The last place the digits fit (T129) and the first they do not (T130). -/
theorem witness_DecimalDigitsAreStoredAtI :
    (let s := { State.reset with i := 0x0FFD }
     s.ramCanonical ∧ s.i.toNat ≤ 0xFFD) ∧
    (let s := { State.reset with i := 0x0FFE }
     s.ramCanonical ∧ 0xFFD < s.i.toNat) := by decide

/-- `Fx55` and `Fx65` with `x` = 15: the last block that fits (T134) and the first that does not
(T135). -/
theorem witness_BlockStoreAdvancesIndex :
    (let s := { State.reset with i := 0x0FF0 }
     s.ramCanonical ∧ s.i.toNat + (15 : Reg).val ≤ 0xFFF) ∧
    (let s := { State.reset with i := 0x0FF1 }
     s.ramCanonical ∧ 0xFFF < s.i.toNat + (15 : Reg).val) := by decide

theorem witness_BlockLoadAdvancesIndex :
    (let s := { State.reset with i := 0x0FF0 }
     s.i.toNat + (15 : Reg).val ≤ 0xFFF) ∧
    (let s := { State.reset with i := 0x0FF1 }
     0xFFF < s.i.toNat + (15 : Reg).val) := by decide

/-- Each of the four kinds, one byte too far. -/
theorem witness_TransferOutsideRamChangesNothing :
    ∀ p ∈ [(Instr.drwVxVyN 0 1 3, 3, 0x0FFE#16), (.ldBVx 0, 3, 0x0FFE#16),
           (.ldMemVx 15, 16, 0x0FF1#16), (.ldVxMem 0, 1, 0x1000#16)],
      p.1.transferSize = some p.2.1 ∧ p.2.1 ≠ 0 ∧ 0xFFF < p.2.2.toNat + p.2.1 - 1 := by decide

theorem witness_RegistersOutsideTheWriteSetStay :
    exec (.addVxVy 0 1) State.reset = .next (nextOr State.reset (exec (.addVxVy 0 1) State.reset)) ∧
      (Instr.addVxVy 0 1).writesReg 1 = false :=
  ⟨next_of_isNext _ (by decide), by decide⟩

/-- `1nnn` writes none of the stores. -/
theorem witness_EachStoreHasItsOwnWriters :
    exec (.jp 0x234) State.reset = .next (State.reset.setPc (zextAddr 0x234)) ∧
      (∀ x, Instr.jp 0x234 ≠ .ldBVx x) ∧ (∀ nnn, Instr.jp 0x234 ≠ .call nnn) ∧
      Instr.jp 0x234 ≠ .cls :=
  ⟨rfl, nofun, nofun, nofun⟩

/-- One body fault for each cause a body can raise: `00EE`, `2nnn`, `Fx33`. -/
theorem witness_BodyFaultsArePrecise :
    ∀ p ∈ [(Instr.ret, State.reset),
           (.call 0x300, { State.reset with stack := List.replicate 16 0x0202 }),
           (.ldBVx 0, { State.reset with i := 0x0FFE })],
      exec p.1 p.2 = .next (nextOr p.2 (exec p.1 p.2)) ∧ p.2.run = .running ∧
        (nextOr p.2 (exec p.1 p.2)).run = .faulted := by
  have h : ∀ p ∈ [(Instr.ret, State.reset),
           (.call 0x300, { State.reset with stack := List.replicate 16 0x0202 }),
           (.ldBVx 0, { State.reset with i := 0x0FFE })],
      isNext (exec p.1 p.2) = true ∧ p.2.run = .running ∧
        (nextOr p.2 (exec p.1 p.2)).run = .faulted := by decide
  exact fun p hp => ⟨next_of_isNext _ (h p hp).1, (h p hp).2⟩

end Sys2Proof.Tests
end

section
/-! The two jumps that overwrite `pc` (40_cycle_and_control_flow.md R124, R126). -/

namespace Sys2Proof.Machine

theorem exec_jp (nnn : Addr12) (s : State) :
    exec (.jp nnn) s = .next (s.setPc (zextAddr nnn)) := rfl

theorem exec_jpV0Nnn (nnn : Addr12) (s : State) :
    exec (.jpV0Nnn nnn) s = .next (s.setPc (zextAddr nnn + zextByte (s.reg 0))) := rfl

/-- A 12-bit address and a byte sum to at most 0x10FE, so the 16-bit sum of R126 does not wrap. -/
theorem zextAddr_add_zextByte_toNat (nnn : Addr12) (b : Byte) :
    (zextAddr nnn + zextByte b).toNat = nnn.toNat + b.toNat := by
  have := nnn.isLt
  have := b.isLt
  rw [BitVec.toNat_add, zextAddr_toNat, zextByte_toNat]
  omega

theorem sameRam_setPc (s : State) (t : Word) : s.SameRam (s.setPc t) :=
  setPc_readByte s t

/-- Settles O33: both jumps are one `setPc`, whose target as a number is exact. -/
theorem jumpsOverwritePc : Obligations.JumpsOverwritePc := by
  intro nnn s
  constructor
  · exact ⟨_, exec_jp nnn s, zextAddr_toNat nnn, rfl, sameRam_setPc s _⟩
  · exact ⟨_, exec_jpV0Nnn nnn s, zextAddr_add_zextByte_toNat nnn _, rfl, sameRam_setPc s _⟩

end Sys2Proof.Machine
end

section
/-! The four skips on registers, each one `skipIf` of its comparison (41_skips.md R141 to R144). -/

namespace Sys2Proof.Machine

theorem exec_seVxNn (x : Reg) (nn : Byte) (s : State) :
    exec (.seVxNn x nn) s = .next (s.skipIf (s.reg x == nn)) := rfl

theorem exec_sneVxNn (x : Reg) (nn : Byte) (s : State) :
    exec (.sneVxNn x nn) s = .next (s.skipIf (s.reg x != nn)) := rfl

theorem exec_seVxVy (x y : Reg) (s : State) :
    exec (.seVxVy x y) s = .next (s.skipIf (s.reg x == s.reg y)) := rfl

theorem exec_sneVxVy (x y : Reg) (s : State) :
    exec (.sneVxVy x y) s = .next (s.skipIf (s.reg x != s.reg y)) := rfl

/-- The skip of the two "equal" forms, whatever the second operand is. -/
theorem skipIf_beq (s : State) (a b : Byte) :
    s.skipIf (a == b) = { s with pc := if a = b then s.pc + 2 else s.pc } := by
  simp only [skipIf_eq, beq_iff_eq]

/-- The skip of the two "not equal" forms: `skipIf_beq` with the two outcomes exchanged. -/
theorem skipIf_bne (s : State) (a b : Byte) :
    s.skipIf (a != b) = { s with pc := if a = b then s.pc else s.pc + 2 } := by
  simp only [skipIf_eq, bne_iff_ne, ne_eq, ite_not]

/-- Settles O32: each form is one `skipIf`, on `==` for the equal forms and `!=` for the others. -/
theorem skipsMovePcOnlyWhenTrue : Obligations.SkipsMovePcOnlyWhenTrue := by
  intro x y nn s
  refine ⟨?seVxNn, ?sneVxNn, ?seVxVy, ?sneVxVy⟩
  case seVxNn => rw [exec_seVxNn, skipIf_beq]
  case sneVxNn => rw [exec_sneVxNn, skipIf_bne]
  case seVxVy => rw [exec_seVxVy, skipIf_beq]
  case sneVxVy => rw [exec_sneVxVy, skipIf_bne]

end Sys2Proof.Machine
end

section
/-! The step from a state that is ready to run a cycle over a word it can fetch
(40_cycle_and_control_flow.md R120). -/

namespace Sys2Proof.Machine

theorem step_of_cycleReady {s : State} (hs : s.CycleReady) : step s = cycle s.afterMove := by
  obtain ⟨hmove, hrun, hphase, hcfg, habort, hhalt⟩ := hs
  rw [step_engine hmove]
  simp [engineTurn, fetchTurn, hrun, hphase, hcfg, habort, hhalt]

theorem readWord_of_fetches {s : State} {w : Word} (hw : s.fetches w) :
    s.readWord s.pc.toNat = .ok w := by
  obtain ⟨hpc, hhigh, hlow⟩ := hw
  rcases readWord_cases s s.pc.toNat with ⟨-, hread⟩ | ⟨hout, -⟩
  · rw [hread, hhigh, hlow, wordOfBytes_bytesOfWord]
  · omega

/-- A ready step over a word that decodes runs the body from `inBody`, then exposes the result. -/
theorem step_of_fetches {s t : State} {w : Word} {i : Instr} (hs : s.CycleReady)
    (hw : s.fetches w) (hd : decodeWord w = .ok i) (ht : exec i s.inBody = .next t) :
    step s = .next (t.expose (some w)) := by
  have hread : s.afterMove.readWord s.afterMove.pc.toNat = .ok w := readWord_of_fetches hw
  have hbody : exec i (s.afterMove.setPc (s.afterMove.pc + 2)) = .next t := ht
  simp only [step_of_cycleReady hs, cycle, hread, dispatch, hd, hbody, mapNext]

@[simp] theorem expose_reg (s : State) (w : Option Word) (r : Reg) :
    (s.expose w).reg r = s.reg r := by
  rw [expose_eq]; rfl

@[simp] theorem expose_pc (s : State) (w : Option Word) : (s.expose w).pc = s.pc := by
  rw [expose_eq]

end Sys2Proof.Machine
end

section
/-! Literal loads and adds, the "random" instruction and the glyph address
(42_load_immediate.md R151 to R154; 47_index_memory.md R242): one write to `V[x]` or to `I` each. -/

namespace Sys2Proof.Machine

theorem exec_ldVxNn (x : Reg) (nn : Byte) (s : State) :
    exec (.ldVxNn x nn) s = .next (s.setReg x nn) := rfl

theorem exec_addVxNn (x : Reg) (nn : Byte) (s : State) :
    exec (.addVxNn x nn) s = .next (s.setReg x (s.reg x + nn)) := rfl

/-- `RND_VALUE` is all ones, so its AND with a literal is the literal (R154). -/
theorem exec_rndVxNn (x : Reg) (nn : Byte) (s : State) :
    exec (.rndVxNn x nn) s = .next (s.setReg x nn) := by
  have hand : Config.rndValue &&& nn = nn := BitVec.allOnes_and
  change Host.Outcome.next (s.setReg x (Config.rndValue &&& nn)) = _
  rw [hand]

theorem exec_ldINnn (nnn : Addr12) (s : State) :
    exec (.ldINnn nnn) s = .next (s.setI (zextAddr nnn)) := rfl

theorem exec_ldFVx (x : Reg) (s : State) :
    exec (.ldFVx x) s = .next (s.setI (glyphAddr (s.reg x))) := rfl

theorem decodeWord_encode_ldVxNn (x : Reg) (nn : Byte) :
    decodeWord (encode (.ldVxNn x nn)) = .ok (.ldVxNn x nn) := by
  obtain ⟨hop, hx, hnn⟩ := fields_wordXNN 0x6#4 x nn
  simp [decodeWord, encode, decodeFields, hop, hx, hnn]

/-- A write to `V[x]` leaves every other register and all else, as the statements about one
destination register word it. -/
theorem setReg_frame (s : State) (x : Reg) (b : Byte) :
    (∀ r, r ≠ x → (s.setReg x b).reg r = s.reg r) ∧
      s.setReg x b = { s with v := (s.setReg x b).v } ∧ s.SameRam (s.setReg x b) :=
  ⟨fun _ hr => reg_setReg_ne s b hr, setReg_eq s x b, setReg_readByte s x b⟩

/-- A write to `I` leaves all else. -/
theorem setI_frame (s : State) (t : Word) :
    s.setI t = { s with i := (s.setI t).i } ∧ s.SameRam (s.setI t) :=
  ⟨rfl, setI_readByte s t⟩

/-- Settles O24: the body is one `setReg`, and the cycle around it advances `pc` by 2 before it. -/
theorem loadLiteralIntoRegister : Obligations.LoadLiteralIntoRegister := by
  intro x nn s
  constructor
  · exact ⟨_, exec_ldVxNn x nn s, reg_setReg_same s x nn, setReg_frame s x nn⟩
  · intro hs hw
    refine ⟨_, step_of_fetches hs hw (decodeWord_encode_ldVxNn x nn) (exec_ldVxNn x nn _), ?_, ?_⟩
    · rw [expose_reg, reg_setReg_same]
    · rw [expose_pc, setReg_pc, State.inBody]

/-- Settles O25: the body is one `setReg` of the 8-bit sum, so `VF` is written only as `V[x]`. -/
theorem addLiteralWrapsWithoutFlag : Obligations.AddLiteralWrapsWithoutFlag := by
  intro x nn s
  refine ⟨_, exec_addVxNn x nn s, ?_, setReg_frame s x _⟩
  rw [reg_setReg_same, BitVec.toNat_add]

/-- Settles O26: the value written does not depend on the state. -/
theorem randomIsTheLiteralItself : Obligations.RandomIsTheLiteralItself := by
  intro x nn s
  exact ⟨_, exec_rndVxNn x nn s, reg_setReg_same s x nn, setReg_frame s x nn⟩

/-- Settles O53: both forms are one `setI`, whose value as a number is exact. -/
theorem indexIsLoadedWithAnAddress : Obligations.IndexIsLoadedWithAnAddress := by
  constructor
  · intro nnn s
    exact ⟨_, exec_ldINnn nnn s, zextAddr_toNat nnn, setI_frame s _⟩
  · intro x s
    exact ⟨_, exec_ldFVx x s, glyphAddr_toNat (s.reg x), setI_frame s _⟩

end Sys2Proof.Machine
end

section
/-! The move and the carry and borrow arithmetic between registers (43_alu.md R161, R165, R166, R168):
a move is one `setReg`, the arithmetic one `setRegFlag`, whose flag is the last write (R160). -/

namespace Sys2Proof.Machine

theorem exec_ldVxVy (x y : Reg) (s : State) :
    exec (.ldVxVy x y) s = .next (s.setReg x (s.reg y)) := rfl

theorem exec_addVxVy (x y : Reg) (s : State) :
    exec (.addVxVy x y) s = .next (s.setRegFlag x (aluAdd (s.reg x) (s.reg y))) := rfl

theorem exec_subVxVy (x y : Reg) (s : State) :
    exec (.subVxVy x y) s = .next (s.setRegFlag x (aluSub (s.reg x) (s.reg y))) := rfl

theorem exec_subnVxVy (x y : Reg) (s : State) :
    exec (.subnVxVy x y) s = .next (s.setRegFlag x (aluSub (s.reg y) (s.reg x))) := rfl

/-- The flag is in `VF` for every destination, `x` = 15 included (R171). -/
@[simp] theorem reg_setRegFlag_vF (s : State) (x : Reg) (r : AluResult) :
    (s.setRegFlag x r).reg vF = r.flag := by
  rw [reg_setRegFlag, if_pos rfl]

/-- The result survives unless its register is the one the flag goes to. -/
theorem reg_setRegFlag_same (s : State) {x : Reg} (r : AluResult) (hx : x ≠ vF) :
    (s.setRegFlag x r).reg x = r.value := by
  rw [reg_setRegFlag, if_neg hx, if_pos rfl]

/-- A result with its flag leaves every register but `V[x]` and `VF`, and all else, as the statements
about the flag-producing instructions word it. -/
theorem setRegFlag_frame (s : State) (x : Reg) (r : AluResult) :
    (∀ k, k ≠ x → k ≠ 15 → (s.setRegFlag x r).reg k = s.reg k) ∧
      s.setRegFlag x r = { s with v := (s.setRegFlag x r).v } ∧ s.SameRam (s.setRegFlag x r) := by
  refine ⟨fun k hkx hkF => ?_, setRegFlag_eq s x r, fun _ => rfl⟩
  rw [reg_setRegFlag, if_neg hkF, if_neg hkx]

/-- The value of `aluSub` is the integer difference mod 256: adding 256 before the subtraction keeps
it natural and does not change the residue. -/
theorem aluSub_value_int (p q : Byte) :
    ((aluSub p q).value.toNat : Int) = (p.toNat - q.toNat : Int) % 256 := by
  have hp := p.isLt
  have hq := q.isLt
  rw [aluSub_value]
  omega

/-- Writing a difference and its NOT borrow, whichever operands `8xy5` and `8xy7` pass. -/
theorem setRegFlag_aluSub (s : State) (x : Reg) (p q : Byte) :
    ((s.setRegFlag x (aluSub p q)).reg 15).toNat = (if q.toNat ≤ p.toNat then 1 else 0) ∧
      (x ≠ 15 →
        (((s.setRegFlag x (aluSub p q)).reg x).toNat : Int) = (p.toNat - q.toNat : Int) % 256) := by
  constructor
  · rw [reg_setRegFlag_vF, aluSub_flag]
  · intro hx
    rw [reg_setRegFlag_same s _ hx, aluSub_value_int]

/-- Settles O29: the body is one `setRegFlag` of the 8-bit sum and its carry. -/
theorem addWritesSumThenCarry : Obligations.AddWritesSumThenCarry := by
  intro x y s
  refine ⟨_, exec_addVxVy x y s, ?flag, ?sum, setRegFlag_frame s x _⟩
  case flag => rw [reg_setRegFlag_vF, aluAdd_flag]
  case sum =>
    intro hx
    rw [reg_setRegFlag_same s _ hx, aluAdd_value]

/-- Settles O30: both forms are one `setRegFlag` of an `aluSub`, with the operands exchanged. -/
theorem subtractWritesDifferenceThenNotBorrow :
    Obligations.SubtractWritesDifferenceThenNotBorrow := by
  intro x y s
  constructor
  · obtain ⟨hflag, hdiff⟩ := setRegFlag_aluSub s x (s.reg x) (s.reg y)
    exact ⟨_, exec_subVxVy x y s, hflag, hdiff, setRegFlag_frame s x _⟩
  · obtain ⟨hflag, hdiff⟩ := setRegFlag_aluSub s x (s.reg y) (s.reg x)
    exact ⟨_, exec_subnVxVy x y s, hflag, hdiff, setRegFlag_frame s x _⟩

/-- Settles O27: the body is one `setReg` of the old `V[y]`. -/
theorem moveCopiesTheSource : Obligations.MoveCopiesTheSource := by
  intro x y s
  exact ⟨_, exec_ldVxVy x y s, reg_setReg_same s x (s.reg y), setReg_frame s x (s.reg y)⟩

end Sys2Proof.Machine
end

section
/-! The blitter as one XOR with a mask (44_display.md R182): every level of its loops draws a mask, and
masks without a common pixel compose. The mask of the whole is `spriteBit`. -/

namespace Sys2Proof.Machine

/-- `b'` is `b` with the pixels of the mask `m` XORed in, and with the collision bit raised if one of them
lay over a set pixel. -/
structure BlitState.Draws (b : BlitState) (m : Nat → Nat → Bool) (b' : BlitState) : Prop where
  pixel : ∀ px py, Display.pixel b'.disp px py = (Display.pixel b.disp px py ^^ m px py)
  collision : b'.collision = true ↔
    b.collision = true ∨ ∃ px py, m px py = true ∧ Display.pixel b.disp px py = true

/-- An empty mask draws nothing. -/
theorem draws_empty (b : BlitState) {m : Nat → Nat → Bool} (hm : ∀ px py, m px py = false) :
    b.Draws m b where
  pixel := by simp [hm]
  collision := by simp [hm]

/-- Two masks without a common pixel, drawn one after the other, are their union drawn at once: the
second finds the pixels under it as the first found them. -/
theorem BlitState.Draws.trans {b b₁ b₂ : BlitState} {m m₁ m₂ : Nat → Nat → Bool}
    (h₁ : b.Draws m₁ b₁) (h₂ : b₁.Draws m₂ b₂)
    (hdisj : ∀ px py, m₂ px py = true → m₁ px py = false)
    (hm : ∀ px py, m px py = (m₁ px py || m₂ px py)) : b.Draws m b₂ where
  pixel px py := by
    rw [h₂.pixel, h₁.pixel, hm]
    cases h : m₂ px py with
    | false => simp
    | true => simp [hdisj px py h]
  collision := by
    have hunder : ∀ px py, (m₂ px py = true ∧ Display.pixel b₁.disp px py = true) ↔
        (m₂ px py = true ∧ Display.pixel b.disp px py = true) := fun px py =>
      and_congr_right fun h => by rw [h₁.pixel, hdisj px py h, Bool.xor_false]
    simp only [h₂.collision, h₁.collision, hunder, hm, Bool.or_eq_true, or_and_right, exists_or,
      or_assoc]

/-- The mask of one pixel of the inner loop: column `c` of `row` drawn at (`x0`, `y`). -/
def pixelBit (row : Byte) (x0 y c px py : Nat) : Bool :=
  decide (px = x0 + c ∧ py = y) && decide (x0 + c ≤ 63 ∧ row.getLsbD (7 - c) = true)

/-- The mask of the first `n` columns of the inner loop. -/
def columnsBit (row : Byte) (x0 y n px py : Nat) : Bool :=
  decide (px ≤ 63 ∧ x0 ≤ px ∧ px < x0 + n ∧ py = y) && row.getLsbD (7 - (px - x0))

theorem draws_blitPixel (row : Byte) (x0 c : Nat) {y : Nat} (hy : y ≤ 31) (b : BlitState) :
    b.Draws (pixelBit row x0 y c) (blitPixel row x0 y c b) := by
  rcases blitPixel_cases row x0 y c b with ⟨hset, heq⟩ | ⟨hclear, heq⟩
  · have hbit : ∀ px py, pixelBit row x0 y c px py = decide (px = x0 + c ∧ py = y) := by
      intro px py
      rw [pixelBit, decide_eq_true hset, Bool.and_true]
    rw [heq]
    constructor
    case pixel =>
      intro px py
      rw [hbit, pixel_flip b.disp (by omega) (by omega)]
    case collision => simp [hbit]
  · rw [heq]
    refine draws_empty b fun px py => ?_
    rw [pixelBit, decide_eq_false hclear, Bool.and_false]

/-- One more column adds its own pixel. -/
theorem columnsBit_succ (row : Byte) (x0 y n px py : Nat) :
    columnsBit row x0 y (n + 1) px py =
      (columnsBit row x0 y n px py || pixelBit row x0 y n px py) := by
  unfold columnsBit pixelBit
  by_cases h : px = x0 + n
  · subst h
    simp [Bool.and_comm, Bool.and_left_comm, and_comm]
  · have hlt : px < x0 + (n + 1) ↔ px < x0 + n := by omega
    simp [h, hlt]

theorem columnsBit_of_pixelBit {row : Byte} {x0 y n px py : Nat}
    (h : pixelBit row x0 y n px py = true) : columnsBit row x0 y n px py = false := by
  simp only [pixelBit, Bool.and_eq_true, decide_eq_true_eq] at h
  obtain ⟨⟨rfl, -⟩, -⟩ := h
  simp [columnsBit]

theorem draws_columns (row : Byte) (x0 : Nat) {y : Nat} (hy : y ≤ 31) (b : BlitState) (n : Nat) :
    b.Draws (columnsBit row x0 y n)
      ((List.range n).foldl (fun acc c => blitPixel row x0 y c acc) b) := by
  induction n with
  | zero =>
    refine draws_empty b fun px py => ?_
    have hnone : ¬ (px ≤ 63 ∧ x0 ≤ px ∧ px < x0 + 0 ∧ py = y) := by omega
    rw [columnsBit, decide_eq_false hnone, Bool.false_and]
  | succ n ih =>
    rw [List.range_succ, List.foldl_append]
    exact ih.trans (draws_blitPixel row x0 n hy _) (fun _ _ => columnsBit_of_pixelBit)
      (columnsBit_succ row x0 y n)

/-- A sprite has no pixel on a line that none of its rows is drawn on. -/
theorem spriteBit_off_rows {rows : List Byte} {x0 y px py : Nat}
    (h : ¬ (y ≤ py ∧ py < y + rows.length)) : spriteBit rows x0 y px py = false := by
  have hout : ¬ (px ≤ 63 ∧ py ≤ 31 ∧ x0 ≤ px ∧ px ≤ x0 + 7 ∧ y ≤ py ∧ py < y + rows.length) :=
    fun ⟨_, _, _, _, hline⟩ => h hline
  rw [spriteBit, decide_eq_false hout, Bool.false_and]

@[simp] theorem spriteBit_nil (x0 y px py : Nat) : spriteBit [] x0 y px py = false :=
  spriteBit_off_rows (by simp)

theorem spriteBit_singleton_off_row (row : Byte) (x0 px : Nat) {y py : Nat} (h : py ≠ y) :
    spriteBit [row] x0 y px py = false :=
  spriteBit_off_rows (by rw [List.length_singleton]; omega)

/-- A sprite of one row is the eight columns of that row, unless it lies below the bottom edge. -/
theorem spriteBit_singleton (row : Byte) (x0 y px py : Nat) :
    spriteBit [row] x0 y px py = (decide (y ≤ 31) && columnsBit row x0 y 8 px py) := by
  by_cases h : py = y
  · subst h
    have hcols : px ≤ x0 + 7 ↔ px < x0 + 8 := by omega
    by_cases hy : py ≤ 31 <;> simp [spriteBit, columnsBit, hy, hcols]
  · rw [spriteBit_singleton_off_row row x0 px h]
    simp [columnsBit, h]

theorem draws_blitRow (row : Byte) (x0 y : Nat) (b : BlitState) :
    b.Draws (spriteBit [row] x0 y) (blitRow row x0 y b) := by
  unfold blitRow
  by_cases hy : y ≤ 31
  · have hmask : spriteBit [row] x0 y = columnsBit row x0 y 8 := by
      funext px py
      rw [spriteBit_singleton, decide_eq_true hy, Bool.true_and]
    rw [if_pos hy, hmask]
    exact draws_columns row x0 hy b 8
  · rw [if_neg hy]
    refine draws_empty b fun px py => ?_
    rw [spriteBit_singleton, decide_eq_false hy, Bool.false_and]

/-- A sprite is its first row, and the sprite of the other rows one line below. -/
theorem spriteBit_cons (row : Byte) (rows : List Byte) (x0 y px py : Nat) :
    spriteBit (row :: rows) x0 y px py =
      (spriteBit [row] x0 y px py || spriteBit rows x0 (y + 1) px py) := by
  by_cases h : py = y
  · subst h
    rw [spriteBit_off_rows (rows := rows) (by omega), Bool.or_false]
    simp [spriteBit]
  · rw [spriteBit_singleton_off_row row x0 px h, Bool.false_or]
    by_cases hbelow : y + 1 ≤ py
    · have hidx : py - y = py - (y + 1) + 1 := by omega
      have hlen : py < y + (rows.length + 1) ↔ py < y + 1 + rows.length := by omega
      simp [spriteBit, hbelow, hidx, hlen, show y ≤ py by omega]
    · rw [spriteBit_off_rows (by omega), spriteBit_off_rows (by omega)]

/-- The first row has no pixel in common with the rows below it. -/
theorem spriteBit_singleton_of_below {row : Byte} {rows : List Byte} {x0 y px py : Nat}
    (h : spriteBit rows x0 (y + 1) px py = true) : spriteBit [row] x0 y px py = false := by
  refine spriteBit_singleton_off_row row x0 px fun hline => ?_
  rw [spriteBit_off_rows (by omega)] at h
  exact Bool.false_ne_true h

theorem draws_blitRows (x0 y : Nat) (rows : List Byte) (b : BlitState) :
    b.Draws (spriteBit rows x0 y) (blitRows x0 y rows b) := by
  induction rows generalizing y b with
  | nil => exact draws_empty b (spriteBit_nil x0 y)
  | cons row rows ih =>
    exact (draws_blitRow row x0 y b).trans (ih (y + 1) _)
      (fun _ _ => spriteBit_singleton_of_below) (spriteBit_cons row rows x0 y)

/-- The whole blit draws the clipped sprite, from a collision bit that is clear. -/
theorem draws_blit (d : Display) (x0 y0 : Byte) (rows : List Byte) :
    BlitState.Draws { disp := d, collision := false }
      (spriteBit rows (x0.toNat % 64) (y0.toNat % 32)) (blit d x0 y0 rows) :=
  draws_blitRows (x0.toNat % 64) (y0.toNat % 32) rows { disp := d, collision := false }

/-- Settles O39: the blit draws the mask `spriteBit`, by induction on the columns of a row and on the
rows, which have no pixel in common. -/
theorem blitXorsTheClippedSprite : Obligations.BlitXorsTheClippedSprite := by
  intro d x0 y0 rows
  obtain ⟨hpixel, hcollision⟩ := draws_blit d x0 y0 rows
  constructor
  · exact fun px py _ _ => hpixel px py
  · simpa using hcollision

end Sys2Proof.Machine
end

section
/-! The cycle with the debug port off (40_cycle_and_control_flow.md R120): no meaning changes the
configuration, so step 8 does nothing, and the cycle is its fetch and its dispatch. -/

namespace Sys2Proof.Machine

theorem skipIf_cfg (s : State) (c : Bool) : (s.skipIf c).cfg = s.cfg := by
  cases c <;> rfl

/-- No meaning changes the configuration. -/
theorem exec_cfg {i : Instr} {s t : State} (h : exec i s = .next t) : t.cfg = s.cfg := by
  cases i
  case ret =>
    rcases exec_ret_cases s with ⟨_, _, -, hs⟩ | ⟨-, hs⟩ <;> cases hs.symm.trans h <;> rfl
  case call nnn =>
    rcases exec_call_cases nnn s with ⟨-, hs⟩ | ⟨-, hs⟩ <;> cases hs.symm.trans h <;> rfl
  case drwVxVyN x y n =>
    rcases exec_drw_cases x y n s with ⟨-, hs⟩ | ⟨-, -, hs⟩ <;> cases hs.symm.trans h <;> rfl
  case ldBVx x =>
    rcases exec_ldBVx_cases x s with ⟨-, hs⟩ | ⟨-, hs⟩ <;> cases hs.symm.trans h <;> rfl
  case ldMemVx x =>
    rcases exec_ldMemVx_cases x s with ⟨-, hs⟩ | ⟨-, hs⟩ <;> cases hs.symm.trans h <;> rfl
  case ldVxMem x =>
    rcases exec_ldVxMem_cases x s with ⟨-, hs⟩ | ⟨-, hs⟩ <;> cases hs.symm.trans h <;> rfl
  case seVxNn | sneVxNn | seVxVy | sneVxVy | skpVx | sknpVx =>
    cases h
    exact skipIf_cfg _ _
  all_goals cases h; rfl

/-- No dispatch changes the configuration. -/
theorem dispatch_cfg {w : Word} {s t : State} (h : dispatch w s = .next t) : t.cfg = s.cfg := by
  unfold dispatch at h
  cases hd : decodeWord w with
  | error e =>
    rw [hd] at h
    cases h
    rfl
  | ok i =>
    rw [hd] at h
    exact exec_cfg h

theorem cycle_of_readWord_error {s : State} {e : Nat} (hd : s.cfg.debugMode = false)
    (h : s.readWord s.pc.toNat = .error e) : cycle s = .next (s.raiseFetch e) := by
  have hoff : (s.raiseFetch e).cfg.debugMode = false := hd
  simp only [cycle, h, expose_off hoff]

theorem cycle_of_readWord_ok {s : State} {w : Word} (hd : s.cfg.debugMode = false)
    (h : s.readWord s.pc.toNat = .ok w) : cycle s = dispatch w (s.setPc (s.pc + 2)) := by
  simp only [cycle, h]
  cases ht : dispatch w (s.setPc (s.pc + 2)) with
  | next t =>
    have hoff : t.cfg.debugMode = false := by rw [dispatch_cfg ht, setPc_cfg, hd]
    rw [mapNext, expose_off hoff]
  | fault _ => rfl
  | refused _ => rfl

end Sys2Proof.Machine
end

section
/-! The sound timer reaches nothing else (46_timers.md R226): no operation of the machine reads it but the
debug port's snapshot, so each of them commutes with overwriting it. -/

namespace Sys2Proof.Machine

/-! ### The shared operations under another sound timer -/

theorem skipIf_setSt (s : State) (T : Timer) (c : Bool) :
    (s.setSt T).skipIf c = (s.skipIf c).setSt T := by
  cases c <;> rfl

theorem push_setSt (s : State) (T : Timer) (t : Word) :
    (s.setSt T).push t = (s.push t).map (State.setSt · T) := by
  unfold State.push
  exact (apply_ite (Option.map (State.setSt · T)) (s.stack.length = s.cfg.stackCapacity) none
    (some { s with stack := t :: s.stack })).symm

theorem pop_setSt (s : State) (T : Timer) :
    (s.setSt T).pop = s.pop.map (fun p => (p.1, p.2.setSt T)) := by
  unfold State.pop
  rw [setSt_stack]
  cases s.stack <;> rfl

@[simp] theorem setSt_readRange (s : State) (T : Timer) (a k : Nat) :
    (s.setSt T).readRange a k = s.readRange a k := rfl

@[simp] theorem setSt_baseAddr (s : State) (T : Timer) : (s.setSt T).baseAddr = s.baseAddr := rfl

@[simp] theorem setSt_regsUpTo (s : State) (T : Timer) (x : Reg) :
    (s.setSt T).regsUpTo x = s.regsUpTo x := rfl

theorem writeRange_setSt (s : State) (T : Timer) (a : Nat) (bs : List Byte) :
    (s.setSt T).writeRange a bs = (s.writeRange a bs).map (State.setSt · T) := by
  unfold State.writeRange
  cases rangeFault a bs.length <;> rfl

theorem loadRegs_setSt (s : State) (T : Timer) (j : Nat) (bs : List Byte) :
    (s.setSt T).loadRegs j bs = (s.loadRegs j bs).setSt T := by
  induction bs generalizing s j with
  | nil => rfl
  | cons b bs ih => exact ih (s.setReg (Fin.ofNat 16 j) b) (j + 1)

theorem waitTurn_setSt (s : State) (T : Timer) (r : Reg) :
    (s.setSt T).waitTurn r = (s.waitTurn r).setSt T := by
  unfold State.waitTurn
  simp only [setSt_keyq, setSt_abortPending, setSt_freeCtr]
  cases s.keyq with
  | nil => cases s.abortPending <;> rfl
  | cons c rest =>
    cases s.abortPending with
    | false => rfl
    | true =>
      exact (apply_ite (State.setSt · T) (Config.abortFirst s.freeCtr = true) s.nextFree.abortWait
        (s.nextFree.completeWait r c rest)).symm

theorem whileRunning_setSt (s t : State) (T : Timer) :
    (s.setSt T).whileRunning (t.setSt T) = (s.whileRunning t).setSt T := by
  unfold State.whileRunning
  exact (apply_ite (State.setSt · T) (s.run = .running) t s).symm

/-- A reset makes the sound timer inactive, whatever it was. -/
theorem resetWith_setSt (s : State) (T : Timer) (kind : ResetKind) (rom : List Byte) :
    (s.setSt T).resetWith kind rom = s.resetWith kind rom := by
  cases kind <;> rfl

/-! ### The meanings, the cycle and the turn under another sound timer -/

/-- Every meaning commutes with overwriting the sound timer, but `Fx18`, which overwrites it itself. -/
theorem exec_setSt (i : Instr) (s : State) (T : Timer) :
    ∃ T', exec i (s.setSt T) = mapNext (State.setSt · T') (exec i s) := by
  cases i
  case ldStVx x => exact ⟨timerSet (s.reg x) s.now, rfl⟩
  all_goals refine ⟨T, ?_⟩
  case ret =>
    simp only [exec, execRet, pop_setSt]
    cases s.pop <;> rfl
  case call nnn =>
    simp only [exec, execCall, push_setSt, setSt_pc]
    cases s.push s.pc <;> rfl
  case drwVxVyN x y n =>
    simp only [exec, execDrwVxVyN, setSt_readRange, setSt_baseAddr]
    cases s.readRange s.baseAddr n.toNat <;> rfl
  case ldBVx x =>
    simp only [exec, execLdBVx, writeRange_setSt, setSt_baseAddr, setSt_reg]
    cases s.writeRange s.baseAddr (bcdDigits (s.reg x)) <;> rfl
  case ldMemVx x =>
    simp only [exec, execLdMemVx, writeRange_setSt, setSt_baseAddr, setSt_regsUpTo]
    cases s.writeRange s.baseAddr (s.regsUpTo x) <;> rfl
  case ldVxMem x =>
    simp only [exec, execLdVxMem, setSt_readRange, setSt_baseAddr, loadRegs_setSt]
    cases s.readRange s.baseAddr (x.val + 1) <;> rfl
  case seVxNn | sneVxNn | seVxVy | sneVxVy =>
    exact congrArg Host.Outcome.next (skipIf_setSt s T _)
  case skpVx | sknpVx => exact congrArg Host.Outcome.next (skipIf_setSt s.drainKeys T _)
  all_goals rfl

/-- The dispatch of a word, a decode fault included. -/
theorem dispatch_setSt (w : Word) (s : State) (T : Timer) :
    ∃ T', dispatch w (s.setSt T) = mapNext (State.setSt · T') (dispatch w s) := by
  unfold dispatch
  cases decodeWord w with
  | error e => exact ⟨T, rfl⟩
  | ok i => exact exec_setSt i s T

theorem cycle_setSt {s : State} (hd : s.cfg.debugMode = false) (T : Timer) :
    ∃ T', cycle (s.setSt T) = mapNext (State.setSt · T') (cycle s) := by
  have hd' : (s.setSt T).cfg.debugMode = false := hd
  cases h : s.readWord s.pc.toNat with
  | error e =>
    rw [cycle_of_readWord_error hd h, cycle_of_readWord_error hd' h]
    exact ⟨T, rfl⟩
  | ok w =>
    rw [cycle_of_readWord_ok hd h, cycle_of_readWord_ok hd' h]
    exact dispatch_setSt w (s.setPc (s.pc + 2)) T

theorem fetchTurn_setSt {s : State} (hd : s.cfg.debugMode = false) (T : Timer) :
    ∃ T', fetchTurn (s.setSt T) = mapNext (State.setSt · T') (fetchTurn s) := by
  unfold fetchTurn
  rw [setSt_abortPending, setSt_haltPending]
  cases s.abortPending with
  | true => exact ⟨T, rfl⟩
  | false =>
    cases s.haltPending with
    | true => exact ⟨T, rfl⟩
    | false => exact cycle_setSt hd T

theorem engineTurn_setSt {s : State} (hd : s.cfg.debugMode = false) (T : Timer) :
    ∃ T', engineTurn (s.setSt T) = mapNext (State.setSt · T') (engineTurn s) := by
  unfold engineTurn
  rw [setSt_run, setSt_cfg, setSt_phase]
  cases s.run with
  | halted | faulted | aborted => exact ⟨T, rfl⟩
  | running =>
    by_cases hv : s.cfg.valid
    · simp only [if_pos hv]
      cases s.phase with
      | fetch => exact fetchTurn_setSt hd T
      | waitKey r => exact ⟨T, congrArg Host.Outcome.next (waitTurn_setSt s T r)⟩
    · simp only [if_neg hv]
      exact ⟨T, rfl⟩

theorem deliver_setSt (m : Move) {s : State} (hd : s.cfg.debugMode = false) (T : Timer) :
    ∃ T', deliver m (s.setSt T) = mapNext (State.setSt · T') (deliver m s) := by
  cases m with
  | engine => exact engineTurn_setSt hd T
  | clock ms => exact ⟨T, rfl⟩
  | key c =>
    exact ⟨T, congrArg Host.Outcome.next (whileRunning_setSt s { s with keyq := s.keyq ++ [c] } T)⟩
  | interrupt =>
    exact ⟨T, congrArg Host.Outcome.next (whileRunning_setSt s { s with abortPending := true } T)⟩
  | haltRequest =>
    exact ⟨T, congrArg Host.Outcome.next (whileRunning_setSt s { s with haltPending := true } T)⟩
  | reset kind rom =>
    exact ⟨(s.resetWith kind rom).st,
      congrArg Host.Outcome.next (resetWith_setSt s T kind rom)⟩
  | configure c =>
    exact ⟨T, (apply_ite (mapNext (State.setSt · T)) (s.run = .running)
      (.refused .reconfiguredWhileRunning) (.next { s with cfg := c })).symm⟩

/-- Settles O50: every move's delivery commutes with overwriting the sound timer, and which move comes
next does not depend on it. -/
theorem soundTimerReachesNothing : Obligations.SoundTimerReachesNothing := by
  intro s t T hd hstep
  obtain ⟨T', hT'⟩ := deliver_setSt s.nextMove (s := s.afterMove) hd T
  refine ⟨T', ?_⟩
  calc step (s.setSt T) = mapNext (State.setSt · T') (step s) := hT'
    _ = .next (t.setSt T') := by rw [hstep, mapNext]

end Sys2Proof.Machine
end

section
/-! The timers as `Fx15`, `Fx18` and `Fx07` use them, and the peek beside the mutating read
(46_timers.md R222 to R231). -/

namespace Sys2Proof.Machine

theorem exec_ldDtVx (x : Reg) (s : State) :
    exec (.ldDtVx x) s = .next (s.setDt (timerSet (s.reg x) s.now)) := rfl

theorem exec_ldStVx (x : Reg) (s : State) :
    exec (.ldStVx x) s = .next (s.setSt (timerSet (s.reg x) s.now)) := rfl

/-- `Fx07` puts the mutating read's value in `V[x]` and its timer in the delay timer (R228). -/
theorem exec_ldVxDt_reads (x : Reg) (s : State) :
    ∃ t, exec (.ldVxDt x) s = .next t ∧ t.reg x = (timerReadMut s.cfg.timeScale s.dt s.now).1 ∧
      t.dt = (timerReadMut s.cfg.timeScale s.dt s.now).2 :=
  ⟨_, rfl, reg_setReg_same _ x _, rfl⟩

/-- An inactive timer reads 0, whatever its start value is. -/
theorem timerReadMut_of_inactive {T : Timer} (h : T.ref = none) (scale t : Nat) :
    (timerReadMut scale T t).1 = 0 := by
  simp [timerReadMut, h]

/-- With `TIME_SCALE` 1, a timer read `d` ms after it was set has lost the whole ticks in `d`. -/
theorem timerReadMut_timerSet_value (b : Byte) (t d : Nat) :
    (timerReadMut 1 (timerSet b t) (t + d)).1.toNat = b.toNat - d / 16 := by
  simp [timerReadMut_value, timerSet]

/-- The read that finds the value exhausted leaves the timer inactive. -/
theorem timerReadMut_timerSet_exhausted {b : Byte} {d : Nat} (h : b.toNat ≤ d / 16) (t : Nat) :
    (timerReadMut 1 (timerSet b t) (t + d)).2.ref = none := by
  simp [timerReadMut_timer, timerSet, h]

/-- Settles O47: the read is the one of a timer set `d` ms ago; once exhausted it has cleared the
reference, which no later read restores. -/
theorem timerDecaysByWholeTicks : Obligations.TimerDecaysByWholeTicks := by
  intro x y d s u hscale hset
  cases (exec_ldDtVx x s).symm.trans hset
  obtain ⟨t, ht, hreg, hdt⟩ :=
    exec_ldVxDt_reads y { s.setDt (timerSet (s.reg x) s.now) with now := s.now + d }
  change t.reg y = (timerReadMut s.cfg.timeScale (timerSet (s.reg x) s.now) (s.now + d)).1 at hreg
  change t.dt = (timerReadMut s.cfg.timeScale (timerSet (s.reg x) s.now) (s.now + d)).2 at hdt
  rw [hscale] at hreg hdt
  have hvalue : (t.reg y).toNat = (s.reg x).toNat - d / 16 := by
    rw [hreg, timerReadMut_timerSet_value]
  refine ⟨t, ht, fun _ => hvalue, fun hle => ⟨BitVec.eq_of_toNat_eq ?_, fun d' z => ?_⟩⟩
  · rw [hvalue, Nat.sub_eq_zero_of_le hle]
    rfl
  · have hoff : t.dt.ref = none := by rw [hdt, timerReadMut_timerSet_exhausted hle]
    obtain ⟨t', ht', hreg', -⟩ := exec_ldVxDt_reads z { t with now := t.now + d' }
    exact ⟨t', ht', by rw [hreg', timerReadMut_of_inactive hoff]⟩

/-- A peek is the mutating read at `TIME_SCALE` 1. -/
theorem timerPeek_eq_timerReadMut_one (T : Timer) (t : Nat) :
    timerPeek T t = (timerReadMut 1 T t).1 := by
  apply BitVec.eq_of_toNat_eq
  rw [timerPeek_value, timerReadMut_value]
  cases T.ref with
  | none => rfl
  | some r => exact congrArg (T.start.toNat - ·) (Nat.div_one _).symm

/-- A time scale takes fewer ticks off the start value. -/
theorem timerPeek_le_timerReadMut (scale : Nat) (T : Timer) (t : Nat) :
    (timerPeek T t).toNat ≤ (timerReadMut scale T t).1.toNat := by
  rw [timerPeek_value, timerReadMut_value]
  cases T.ref with
  | none => exact Nat.le_refl 0
  | some r => exact Nat.sub_le_sub_left (Nat.div_le_self _ scale) _

/-- Settles O49: the peek is the read at scale 1, and a larger scale takes fewer ticks off it. -/
theorem peekAgainstMutatingRead : Obligations.PeekAgainstMutatingRead := by
  intro T now scale _
  refine ⟨fun h => ?inactive, fun r h => ?ticks, timerPeek_eq_timerReadMut_one T now,
    timerPeek_le_timerReadMut scale T now⟩
  case inactive => rw [timerPeek_eq_timerReadMut_one, timerReadMut_of_inactive h]
  case ticks => rw [timerPeek_value, h]

/-- Settles O46: both bodies are one write of a timer set to `V[x]` at the time now. -/
theorem timersAreSetToNow : Obligations.TimersAreSetToNow := fun x s =>
  ⟨exec_ldDtVx x s, exec_ldStVx x s⟩

end Sys2Proof.Machine
end

section
/-! Decoder and encoder are inverse, the decoder follows the masks and patterns of the opcode table,
and the words it rejects (30_encoding.md R90 to R100). -/

namespace Sys2Proof

/-! ### The fields of a word in each format -/

@[simp] theorem fields_wordNNN_op (op : Nibble) (nnn : Addr12) :
    (fields (wordNNN op nnn)).op = op :=
  (fields_wordNNN op nnn).1

@[simp] theorem fields_wordNNN_nnn (op : Nibble) (nnn : Addr12) :
    (fields (wordNNN op nnn)).nnn = nnn :=
  (fields_wordNNN op nnn).2

@[simp] theorem fields_wordXNN_op (op : Nibble) (x : Reg) (nn : Byte) :
    (fields (wordXNN op x nn)).op = op :=
  (fields_wordXNN op x nn).1

@[simp] theorem fields_wordXNN_x (op : Nibble) (x : Reg) (nn : Byte) :
    (fields (wordXNN op x nn)).x = nibbleOf x :=
  (fields_wordXNN op x nn).2.1

@[simp] theorem fields_wordXNN_nn (op : Nibble) (x : Reg) (nn : Byte) :
    (fields (wordXNN op x nn)).nn = nn :=
  (fields_wordXNN op x nn).2.2

@[simp] theorem fields_wordXYN_op (op : Nibble) (x y : Reg) (n : Nibble) :
    (fields (wordXYN op x y n)).op = op :=
  (fields_wordXYN op x y n).1

@[simp] theorem fields_wordXYN_x (op : Nibble) (x y : Reg) (n : Nibble) :
    (fields (wordXYN op x y n)).x = nibbleOf x :=
  (fields_wordXYN op x y n).2.1

@[simp] theorem fields_wordXYN_y (op : Nibble) (x y : Reg) (n : Nibble) :
    (fields (wordXYN op x y n)).y = nibbleOf y :=
  (fields_wordXYN op x y n).2.2.1

@[simp] theorem fields_wordXYN_n (op : Nibble) (x y : Reg) (n : Nibble) :
    (fields (wordXYN op x y n)).n = n :=
  (fields_wordXYN op x y n).2.2.2

/-! ### Encoding, then decoding -/

/-- Each arm of the decoder reads back the format its arm of the encoder wrote. -/
theorem decodeWord_encode {i : Instr} (h : i.wf = true) : decodeWord (encode i) = .ok i := by
  cases i
  case cls | ret | brk => rfl
  case sys nnn =>
    obtain ⟨hcls, hret⟩ : nnn ≠ 0x0E0#12 ∧ nnn ≠ 0x0EE#12 := by
      simpa [Instr.wf, sysOperandOk] using h
    simp [decodeWord, encode, decodeFields, decodeFamily0, hcls, hret]
  case ldVxVy | orVxVy | andVxVy | xorVxVy | addVxVy | subVxVy | shrVxVy | subnVxVy | shlVxVy =>
    simp [decodeWord, encode, decodeFields, decodeFamily8]
  case skpVx | sknpVx => simp [decodeWord, encode, decodeFields, decodeFamilyE]
  case ldVxDt | ldVxK | ldDtVx | ldStVx | addIVx | ldFVx | ldBVx | ldMemVx | ldVxMem =>
    simp [decodeWord, encode, decodeFields, decodeFamilyF]
  all_goals simp [decodeWord, encode, decodeFields]

theorem decode_bytesOfWord_append (w : Word) (rest : List Byte) :
    decode (bytesOfWord w ++ rest) = (decodeWord w).map (·, rest) := by
  simp only [bytesOfWord, List.cons_append, List.nil_append, decode, wordOfBytes_bytesOfWord]
  cases decodeWord w <;> rfl

/-- Settles O1: the two bytes are the encoder's word again, which the decoder reads back. -/
theorem decodeOfEncodeGivesTheInstruction : Obligations.DecodeOfEncodeGivesTheInstruction := by
  intro i rest hwf
  rw [encodeBytes, decode_bytesOfWord_append, decodeWord_encode hwf]
  rfl

/-! ### Decoding, then encoding -/

theorem wordNNN_fields {w : Word} {op : Nibble} (hop : (fields w).op = op) :
    wordNNN op (fields w).nnn = w := by
  rw [wordNNN, ← hop, ← word_of_op_nnn]

theorem wordXNN_fields {w : Word} {op : Nibble} {nn : Byte} (hop : (fields w).op = op)
    (hnn : (fields w).nn = nn) : wordXNN op (regOf (fields w).x) nn = w := by
  rw [wordXNN, nibbleOf_regOf, ← hop, ← hnn, ← word_of_op_x_nn]

theorem wordXYN_fields {w : Word} {op n : Nibble} (hop : (fields w).op = op)
    (hn : (fields w).n = n) : wordXYN op (regOf (fields w).x) (regOf (fields w).y) n = w := by
  rw [wordXYN, nibbleOf_regOf, nibbleOf_regOf, ← hop, ← hn, ← word_of_nibbles]

theorem encode_decodeFamily0 {w : Word} (hop : (fields w).op = 0x0#4) :
    encode (decodeFamily0 (fields w)) = w ∧ (decodeFamily0 (fields w)).wf = true := by
  have hw := wordNNN_fields hop
  unfold decodeFamily0
  by_cases hcls : (fields w).nnn = 0x0E0#12
  · rw [if_pos hcls]
    exact ⟨by rw [← hw, hcls]; rfl, rfl⟩
  · by_cases hret : (fields w).nnn = 0x0EE#12
    · rw [if_neg hcls, if_pos hret]
      exact ⟨by rw [← hw, hret]; rfl, rfl⟩
    · rw [if_neg hcls, if_neg hret]
      exact ⟨hw, by simp [Instr.wf, sysOperandOk, hcls, hret]⟩

theorem encode_of_decodeFamily8 {w : Word} {i : Instr} (hop : (fields w).op = 0x8#4)
    (h : decodeFamily8 (fields w) = .ok i) : encode i = w ∧ i.wf = true := by
  unfold decodeFamily8 at h
  split at h <;> cases h <;> exact ⟨wordXYN_fields hop ‹_›, rfl⟩

theorem encode_of_decodeFamilyE {w : Word} {i : Instr} (hop : (fields w).op = 0xE#4)
    (h : decodeFamilyE (fields w) = .ok i) : encode i = w ∧ i.wf = true := by
  unfold decodeFamilyE at h
  split at h <;> cases h <;> exact ⟨wordXNN_fields hop ‹_›, rfl⟩

/-- The one word of family F with a fixed `x` is `FFFF`. -/
theorem word_FFFF {w : Word} (hop : (fields w).op = 0xF#4) (hx : (fields w).x = 0xF#4)
    (hnn : (fields w).nn = 0xFF#8) : w = 0xFFFF#16 := by
  rw [word_of_op_x_nn w, hop, hx, hnn]
  rfl

theorem encode_of_decodeFamilyF {w : Word} {i : Instr} (hop : (fields w).op = 0xF#4)
    (h : decodeFamilyF (fields w) = .ok i) : encode i = w ∧ i.wf = true := by
  unfold decodeFamilyF at h
  split at h
  case h_10 hnn =>
    by_cases hx : (fields w).x = 0xF#4
    · rw [if_pos hx] at h
      cases h
      exact ⟨(word_FFFF hop hx hnn).symm, rfl⟩
    · rw [if_neg hx] at h
      cases h
  all_goals cases h <;> exact ⟨wordXNN_fields hop ‹_›, rfl⟩

/-- Settles O2: by the decoder's dispatch on the high nibble, in the order of its arms; each arm's
word is put together again from the fields that arm read. -/
theorem encodeOfDecodeGivesTheWord : Obligations.EncodeOfDecodeGivesTheWord := by
  intro w i h
  unfold decodeWord decodeFields at h
  split at h
  case h_1 hop =>
    cases h
    exact encode_decodeFamily0 hop
  case h_6 hop | h_10 hop =>
    by_cases hn : (fields w).n = 0x0#4
    · rw [if_pos hn] at h
      cases h
      exact ⟨wordXYN_fields hop hn, rfl⟩
    · rw [if_neg hn] at h
      cases h
  case h_9 hop => exact encode_of_decodeFamily8 hop h
  case h_15 hop => exact encode_of_decodeFamilyE hop h
  case h_16 =>
    have hop : (fields w).op = 0xF#4 := by
      generalize (fields w).op = op at *
      revert op
      decide
    exact encode_of_decodeFamilyF hop h
  case h_2 hop | h_3 hop | h_11 hop | h_12 hop =>
    cases h
    exact ⟨wordNNN_fields hop, rfl⟩
  case h_4 hop | h_5 hop | h_7 hop | h_8 hop | h_13 hop =>
    cases h
    exact ⟨wordXNN_fields hop rfl, rfl⟩
  case h_14 hop =>
    cases h
    exact ⟨wordXYN_fields hop rfl, rfl⟩

/-! ### The opcode table -/

theorem and_F000 (w : Word) : w &&& 0xF000#16 = wordNNN (fields w).op 0 := by
  conv_lhs => rw [← wordNNN_fields (w := w) rfl]
  exact Laws.WordOfRow.nnn_fixed _ _

theorem and_F0FF (w : Word) : w &&& 0xF0FF#16 = wordXNN (fields w).op 0 (fields w).nn := by
  conv_lhs => rw [← wordXNN_fields (w := w) rfl rfl]
  exact Laws.WordOfRow.xnn_fixed _ _ _

theorem and_F00F (w : Word) : w &&& 0xF00F#16 = wordXYN (fields w).op 0 0 (fields w).n := by
  conv_lhs => rw [← wordXYN_fields (w := w) rfl rfl]
  exact Laws.WordOfRow.xyn_fixed _ _ _ _

/-- The rows whose mask fixes the high nibble alone. -/
theorem op_of_mask {w : Word} (op : Nibble) (h : w &&& 0xF000#16 = wordNNN op 0) :
    (fields w).op = op := by
  simpa using congrArg (fun v => (fields v).op) ((and_F000 w).symm.trans h)

/-- The rows whose mask leaves `x` alone open. -/
theorem wordXNN_of_mask {w : Word} (op : Nibble) (nn : Byte)
    (h : w &&& 0xF0FF#16 = wordXNN op 0 nn) : wordXNN op (regOf (fields w).x) nn = w := by
  have heq := (and_F0FF w).symm.trans h
  exact wordXNN_fields (by simpa using congrArg (fun v => (fields v).op) heq)
    (by simpa using congrArg (fun v => (fields v).nn) heq)

/-- The rows whose mask leaves `x` and `y` open. -/
theorem wordXYN_of_mask {w : Word} (op n : Nibble) (h : w &&& 0xF00F#16 = wordXYN op 0 0 n) :
    wordXYN op (regOf (fields w).x) (regOf (fields w).y) n = w := by
  have heq := (and_F00F w).symm.trans h
  exact wordXYN_fields (by simpa using congrArg (fun v => (fields v).op) heq)
    (by simpa using congrArg (fun v => (fields v).n) heq)

theorem word_of_full_mask {w p : Word} (h : w &&& 0xFFFF#16 = p) : p = w :=
  h.symm.trans BitVec.and_allOnes

/-- The word of `0nnn` is no other row's: the operand is not one of the two fixed words'. -/
theorem sys_wf_of_mask {w : Word} (hop : (fields w).op = 0x0#4)
    (hexcept : w ≠ 0x00E0#16 ∧ w ≠ 0x00EE#16) : (Instr.sys (fields w).nnn).wf = true := by
  obtain ⟨hcls, hret⟩ := hexcept
  have hw := wordNNN_fields hop
  have hcls' : (fields w).nnn ≠ 0x0E0#12 := fun h => hcls (by rw [← hw, h]; rfl)
  have hret' : (fields w).nnn ≠ 0x0EE#12 := fun h => hret (by rw [← hw, h]; rfl)
  simp [Instr.wf, sysOperandOk, hcls', hret']

/-- A word that selects row `k` is the encoding of an instruction of that row: the row's
constructor, with the operands that the mask leaves open. -/
theorem exists_instr_of_selectsRow {w : Word} {k : Nat} (h : selectsRow w k) :
    ∃ i : Instr, i.wf = true ∧ i.row = k ∧ encode i = w := by
  obtain ⟨r, hr, hmask, hexcept⟩ := h
  match k, hr with
  | 0, rfl => exact ⟨.cls, rfl, rfl, word_of_full_mask hmask⟩
  | 1, rfl => exact ⟨.ret, rfl, rfl, word_of_full_mask hmask⟩
  | 2, rfl =>
    have hop := op_of_mask 0x0#4 hmask
    exact ⟨.sys _, sys_wf_of_mask hop (hexcept rfl), rfl, wordNNN_fields hop⟩
  | 3, rfl => exact ⟨.jp _, rfl, rfl, wordNNN_fields (op_of_mask 0x1#4 hmask)⟩
  | 4, rfl => exact ⟨.call _, rfl, rfl, wordNNN_fields (op_of_mask 0x2#4 hmask)⟩
  | 5, rfl => exact ⟨.seVxNn _ _, rfl, rfl, wordXNN_fields (op_of_mask 0x3#4 hmask) rfl⟩
  | 6, rfl => exact ⟨.sneVxNn _ _, rfl, rfl, wordXNN_fields (op_of_mask 0x4#4 hmask) rfl⟩
  | 7, rfl => exact ⟨.seVxVy _ _, rfl, rfl, wordXYN_of_mask 0x5#4 0x0#4 hmask⟩
  | 8, rfl => exact ⟨.ldVxNn _ _, rfl, rfl, wordXNN_fields (op_of_mask 0x6#4 hmask) rfl⟩
  | 9, rfl => exact ⟨.addVxNn _ _, rfl, rfl, wordXNN_fields (op_of_mask 0x7#4 hmask) rfl⟩
  | 10, rfl => exact ⟨.ldVxVy _ _, rfl, rfl, wordXYN_of_mask 0x8#4 0x0#4 hmask⟩
  | 11, rfl => exact ⟨.orVxVy _ _, rfl, rfl, wordXYN_of_mask 0x8#4 0x1#4 hmask⟩
  | 12, rfl => exact ⟨.andVxVy _ _, rfl, rfl, wordXYN_of_mask 0x8#4 0x2#4 hmask⟩
  | 13, rfl => exact ⟨.xorVxVy _ _, rfl, rfl, wordXYN_of_mask 0x8#4 0x3#4 hmask⟩
  | 14, rfl => exact ⟨.addVxVy _ _, rfl, rfl, wordXYN_of_mask 0x8#4 0x4#4 hmask⟩
  | 15, rfl => exact ⟨.subVxVy _ _, rfl, rfl, wordXYN_of_mask 0x8#4 0x5#4 hmask⟩
  | 16, rfl => exact ⟨.shrVxVy _ _, rfl, rfl, wordXYN_of_mask 0x8#4 0x6#4 hmask⟩
  | 17, rfl => exact ⟨.subnVxVy _ _, rfl, rfl, wordXYN_of_mask 0x8#4 0x7#4 hmask⟩
  | 18, rfl => exact ⟨.shlVxVy _ _, rfl, rfl, wordXYN_of_mask 0x8#4 0xE#4 hmask⟩
  | 19, rfl => exact ⟨.sneVxVy _ _, rfl, rfl, wordXYN_of_mask 0x9#4 0x0#4 hmask⟩
  | 20, rfl => exact ⟨.ldINnn _, rfl, rfl, wordNNN_fields (op_of_mask 0xA#4 hmask)⟩
  | 21, rfl => exact ⟨.jpV0Nnn _, rfl, rfl, wordNNN_fields (op_of_mask 0xB#4 hmask)⟩
  | 22, rfl => exact ⟨.rndVxNn _ _, rfl, rfl, wordXNN_fields (op_of_mask 0xC#4 hmask) rfl⟩
  | 23, rfl => exact ⟨.drwVxVyN _ _ _, rfl, rfl, wordXYN_fields (op_of_mask 0xD#4 hmask) rfl⟩
  | 24, rfl => exact ⟨.skpVx _, rfl, rfl, wordXNN_of_mask 0xE#4 0x9E#8 hmask⟩
  | 25, rfl => exact ⟨.sknpVx _, rfl, rfl, wordXNN_of_mask 0xE#4 0xA1#8 hmask⟩
  | 26, rfl => exact ⟨.ldVxDt _, rfl, rfl, wordXNN_of_mask 0xF#4 0x07#8 hmask⟩
  | 27, rfl => exact ⟨.ldVxK _, rfl, rfl, wordXNN_of_mask 0xF#4 0x0A#8 hmask⟩
  | 28, rfl => exact ⟨.ldDtVx _, rfl, rfl, wordXNN_of_mask 0xF#4 0x15#8 hmask⟩
  | 29, rfl => exact ⟨.ldStVx _, rfl, rfl, wordXNN_of_mask 0xF#4 0x18#8 hmask⟩
  | 30, rfl => exact ⟨.addIVx _, rfl, rfl, wordXNN_of_mask 0xF#4 0x1E#8 hmask⟩
  | 31, rfl => exact ⟨.ldFVx _, rfl, rfl, wordXNN_of_mask 0xF#4 0x29#8 hmask⟩
  | 32, rfl => exact ⟨.ldBVx _, rfl, rfl, wordXNN_of_mask 0xF#4 0x33#8 hmask⟩
  | 33, rfl => exact ⟨.ldMemVx _, rfl, rfl, wordXNN_of_mask 0xF#4 0x55#8 hmask⟩
  | 34, rfl => exact ⟨.ldVxMem _, rfl, rfl, wordXNN_of_mask 0xF#4 0x65#8 hmask⟩
  | 35, rfl => exact ⟨.brk, rfl, rfl, word_of_full_mask hmask⟩

open Laws.WordOfRow in
/-- The fixed bits of an instruction's word, whichever constructor it is. -/
theorem wordOfRow (i : Instr) : Statement i := by
  cases i <;> apply_rules [cls, ret, sys, jp, call, seVxNn, sneVxNn, seVxVy, ldVxNn, addVxNn,
    ldVxVy, orVxVy, andVxVy, xorVxVy, addVxVy, subVxVy, shrVxVy, subnVxVy, shlVxVy, sneVxVy, ldINnn,
    jpV0Nnn, rndVxNn, drwVxVyN, skpVx, sknpVx, ldVxDt, ldVxK, ldDtVx, ldStVx, addIVx, ldFVx, ldBVx,
    ldMemVx, ldVxMem, brk]

/-- An instruction in the row of `0nnn` that stands for a word is not one of the two fixed words. -/
theorem encode_ne_of_row_two {i : Instr} (hwf : i.wf = true) (hrow : i.row = 2) :
    encode i ≠ 0x00E0#16 ∧ encode i ≠ 0x00EE#16 := by
  have hdecode := decodeWord_encode hwf
  constructor <;> intro h <;> rw [h] at hdecode <;> cases hdecode <;> cases hrow

/-- Settles O3: every word that selects a row is encoded by the row's constructor, which the decoder
gives back; the word of a decoded instruction has the fixed bits of its row. -/
theorem decodeFollowsTheOpcodeTable : Obligations.DecodeFollowsTheOpcodeTable := by
  intro w k
  constructor
  · intro h
    obtain ⟨i, hwf, hrow, rfl⟩ := exists_instr_of_selectsRow h
    exact ⟨i, decodeWord_encode hwf, hrow⟩
  · rintro ⟨i, hdecode, rfl⟩
    obtain ⟨rfl, hwf⟩ := encodeOfDecodeGivesTheWord w i hdecode
    obtain ⟨r, hr, hmask⟩ := wordOfRow i
    exact ⟨r, hr, hmask, encode_ne_of_row_two hwf⟩

/-! ### The rejected words -/

theorem fields_op_toNat (w : Word) : (fields w).op.toNat = w.toNat / 4096 := by
  have := w.isLt
  simp only [fields, BitVec.extractLsb'_toNat, Nat.shiftRight_eq_div_pow]
  omega

theorem fields_n_toNat (w : Word) : (fields w).n.toNat = w.toNat % 16 := by
  simp only [fields, BitVec.extractLsb'_toNat, Nat.shiftRight_zero]

theorem fields_nn_toNat (w : Word) : (fields w).nn.toNat = w.toNat % 256 := by
  simp only [fields, BitVec.extractLsb'_toNat, Nat.shiftRight_zero]

/-- Class (c) of R100. -/
theorem decodeFamily8_error_iff (f : Fields) :
    (∃ e, decodeFamily8 f = .error e) ↔
      f.n.toNat ∈ [0x8, 0x9, 0xA, 0xB, 0xC, 0xD, 0xF] := by
  unfold decodeFamily8
  split
  case h_10 =>
    have hout : f.n.toNat ∈ [0x8, 0x9, 0xA, 0xB, 0xC, 0xD, 0xF] := by
      generalize f.n = n at *
      revert n
      decide
    exact iff_of_true ⟨_, rfl⟩ hout
  all_goals simp [*]

/-- Class (d) of R100. -/
theorem decodeFamilyE_error_iff (f : Fields) :
    (∃ e, decodeFamilyE f = .error e) ↔ f.nn.toNat ∉ [0x9E, 0xA1] := by
  unfold decodeFamilyE
  split <;> simp_all [← BitVec.toNat_inj]

/-- Class (e) of R100. -/
theorem decodeFamilyF_error_iff (f : Fields) :
    (∃ e, decodeFamilyF f = .error e) ↔
      f.nn.toNat ∉ [0x07, 0x0A, 0x15, 0x18, 0x1E, 0x29, 0x33, 0x55, 0x65] ∧
        ¬ (f.x = 0xF#4 ∧ f.nn = 0xFF#8) := by
  unfold decodeFamilyF
  split
  case h_10 hnn => by_cases hx : f.x = 0xF#4 <;> simp [hnn, hx]
  all_goals simp_all [← BitVec.toNat_inj]

/-- The dispatch rejects in five families only. -/
theorem decodeFields_error_iff (f : Fields) :
    (∃ e, decodeFields f = .error e) ↔
      (f.op.toNat = 0x5 ∧ f.n.toNat ≠ 0) ∨ (f.op.toNat = 0x9 ∧ f.n.toNat ≠ 0) ∨
      (f.op.toNat = 0x8 ∧ ∃ e, decodeFamily8 f = .error e) ∨
      (f.op.toNat = 0xE ∧ ∃ e, decodeFamilyE f = .error e) ∨
      (f.op.toNat = 0xF ∧ ∃ e, decodeFamilyF f = .error e) := by
  unfold decodeFields
  split
  case h_6 hop | h_10 hop =>
    have hzero : f.n.toNat = 0 ↔ f.n = 0x0#4 := BitVec.toNat_inj (y := 0x0#4)
    by_cases hn : f.n = 0x0#4 <;> simp [hop, hn, hzero]
  case h_16 =>
    have hop : f.op.toNat = 0xF := by
      generalize f.op = op at *
      revert op
      decide
    simp [hop]
  all_goals simp [*]

theorem eq_FFFF_iff {w : Word} (hop : (fields w).op.toNat = 0xF) :
    ((fields w).x = 0xF#4 ∧ (fields w).nn = 0xFF#8) ↔ w = 0xFFFF#16 := by
  constructor
  · rintro ⟨hx, hnn⟩
    exact word_FFFF (BitVec.eq_of_toNat_eq hop) hx hnn
  · rintro rfl
    exact ⟨rfl, rfl⟩

/-- Settles O4: the five families that reject, each by its selecting nibble or byte, as numbers. -/
theorem illegalWordsAreTheFiveClasses : Obligations.IllegalWordsAreTheFiveClasses := by
  intro w
  have hF : ((fields w).op.toNat = 0xF ∧ ∃ e, decodeFamilyF (fields w) = .error e) ↔
      ((fields w).op.toNat = 0xF ∧
        (fields w).nn.toNat ∉ [0x07, 0x0A, 0x15, 0x18, 0x1E, 0x29, 0x33, 0x55, 0x65] ∧
        w ≠ 0xFFFF#16) := by
    refine and_congr_right fun hop => ?_
    rw [decodeFamilyF_error_iff, eq_FFFF_iff hop]
  rw [decodeWord, decodeFields_error_iff, hF, decodeFamily8_error_iff, decodeFamilyE_error_iff,
    fields_op_toNat, fields_n_toNat, fields_nn_toNat]

/-- Settles O5: each of the ten words is evaluated. -/
theorem wordsOfTheSpecDecode : Obligations.WordsOfTheSpecDecode :=
  ⟨rfl, rfl, rfl, rfl, rfl, rfl, rfl, rfl, rfl, rfl⟩

end Sys2Proof
end

section
/-! The bodies with one destination: logic, shifts, the index sum, the two halts, the clear screen
(43_alu.md R162 to R169; 47_index_memory.md R241; 40_cycle_and_control_flow.md R123, R127;
44_display.md R181). -/

namespace Sys2Proof.Machine

theorem exec_orVxVy (x y : Reg) (s : State) :
    exec (.orVxVy x y) s = .next (s.setReg x (s.reg x ||| s.reg y)) := rfl

theorem exec_andVxVy (x y : Reg) (s : State) :
    exec (.andVxVy x y) s = .next (s.setReg x (s.reg x &&& s.reg y)) := rfl

theorem exec_xorVxVy (x y : Reg) (s : State) :
    exec (.xorVxVy x y) s = .next (s.setReg x (s.reg x ^^^ s.reg y)) := rfl

theorem exec_shrVxVy (x y : Reg) (s : State) :
    exec (.shrVxVy x y) s = .next (s.setRegFlag x (aluShr (s.reg y))) := rfl

theorem exec_shlVxVy (x y : Reg) (s : State) :
    exec (.shlVxVy x y) s = .next (s.setRegFlag x (aluShl (s.reg y))) := rfl

theorem exec_addIVx (x : Reg) (s : State) :
    exec (.addIVx x) s = .next (s.setI (s.i + zextByte (s.reg x))) := rfl

theorem exec_sys (nnn : Addr12) (s : State) : exec (.sys nnn) s = .next (s.setRun .halted) := rfl

theorem exec_brk (s : State) : exec .brk s = .next (s.setRun .halted) := rfl

theorem exec_cls (s : State) : exec .cls s = .next (s.setDisp Display.clear).emitFrame := rfl

/-- Settles O28: each body is one `setReg` of a bitwise operation. -/
theorem logicWorksOnEachBitWithoutFlag : Obligations.LogicWorksOnEachBitWithoutFlag := by
  intro x y s
  refine ⟨⟨_, exec_orVxVy x y s, fun k => ?or, setReg_frame s x _⟩,
    ⟨_, exec_andVxVy x y s, fun k => ?and, setReg_frame s x _⟩,
    ⟨_, exec_xorVxVy x y s, fun k => ?xor, setReg_frame s x _⟩⟩
  case or => rw [reg_setReg_same, BitVec.getLsbD_or]
  case and => rw [reg_setReg_same, BitVec.getLsbD_and]
  case xor => rw [reg_setReg_same, BitVec.getLsbD_xor]

/-- Settles O31: each body is one `setRegFlag` of the shifted `V[y]`. -/
theorem shiftsTakeTheirSourceFromY : Obligations.ShiftsTakeTheirSourceFromY := by
  intro x y s
  refine ⟨⟨_, exec_shrVxVy x y s, ?shrFlag, fun hx => ?shrValue, setRegFlag_frame s x _⟩,
    ⟨_, exec_shlVxVy x y s, ?shlFlag, fun hx => ?shlValue, setRegFlag_frame s x _⟩⟩
  case shrFlag => rw [reg_setRegFlag_vF, aluShr_flag]
  case shrValue => rw [reg_setRegFlag_same s _ hx, aluShr_value]
  case shlFlag => rw [reg_setRegFlag_vF, aluShl_flag]
  case shlValue => rw [reg_setRegFlag_same s _ hx, aluShl_value]

/-- Settles O52: the body is one `setI` of the 16-bit sum. -/
theorem addToIndexWrapsWithoutFlag : Obligations.AddToIndexWrapsWithoutFlag := by
  intro x s
  refine ⟨_, exec_addIVx x s, ?_, setI_frame s _⟩
  rw [setI_i, BitVec.toNat_add, zextByte_toNat]

/-- Settles O37: both bodies are one write of `run`. -/
theorem systemCallAndBreakpointHalt : Obligations.SystemCallAndBreakpointHalt := fun nnn s =>
  ⟨exec_sys nnn s, exec_brk s⟩

/-- Settles O38: the body writes the clear display and pushes it. -/
theorem clearScreenPushesAnEmptyFrame : Obligations.ClearScreenPushesAnEmptyFrame := fun s =>
  ⟨_, exec_cls s, fun _ => pixel_clear _ _, rfl, fun _ => rfl, rfl, fun _ => rfl⟩

end Sys2Proof.Machine
end

section
/-! Call, return and the sprite: one of two outcomes each (40_cycle_and_control_flow.md R122, R125;
44_display.md R182 to R185). -/

namespace Sys2Proof.Machine

/-- A body's fault writes the record of its own address and word, and `run`
(60_exceptions.md R266). -/
theorem raiseBody_faultedFrom (s : State) (cause : FaultCause) (w info : Word) :
    s.FaultedFrom (s.raiseBody cause w info)
      { cause := cause, addr := s.pc - 2, word := some w, info := info } := rfl

/-- Settles O34: the two outcomes of `Push`. -/
theorem callPushesTheNextAddress : Obligations.CallPushesTheNextAddress := by
  refine ⟨rfl, fun nnn s => ?_⟩
  rcases exec_call_cases nnn s with ⟨hroom, hexec⟩ | ⟨hfull, hexec⟩
  · exact ⟨fun _ => ⟨_, hexec, rfl, zextAddr_toNat nnn, rfl, fun _ => rfl⟩,
      fun hfull => absurd hfull hroom⟩
  · exact ⟨fun hroom => absurd hfull hroom, fun _ => ⟨_, hexec, raiseBody_faultedFrom s _ _ _⟩⟩

/-- Settles O35: the two outcomes of `Pop`. -/
theorem returnPopsIntoPc : Obligations.ReturnPopsIntoPc := by
  refine ⟨rfl, fun s => ?_⟩
  rcases exec_ret_cases s with ⟨top, rest, hstack, hexec⟩ | ⟨hstack, hexec⟩
  · refine ⟨fun top' rest' h => ?_, fun h => nomatch hstack.symm.trans h⟩
    cases hstack.symm.trans h
    exact ⟨_, hexec, rfl, rfl, rfl, fun _ => rfl⟩
  · exact ⟨fun _ _ h => (nomatch hstack.symm.trans h),
      fun _ => ⟨_, hexec, raiseBody_faultedFrom s _ _ _⟩⟩

/-- Settles O40: a blit XORs one mask into the display, and XOR undoes itself. -/
theorem blitTwiceRestoresTheDisplay : Obligations.BlitTwiceRestoresTheDisplay := by
  intro d x0 y0 rows
  obtain ⟨hfirst, -⟩ := blitXorsTheClippedSprite d x0 y0 rows
  obtain ⟨hsecond, hcollision⟩ := blitXorsTheClippedSprite (blit d x0 y0 rows).disp x0 y0 rows
  refine ⟨display_ext fun px py hx hy => ?_, hcollision⟩
  rw [hsecond px py hx hy, hfirst px py hx hy, Bool.xor_assoc, Bool.xor_self, Bool.xor_false]

theorem flagByte_eq_one_iff (c : Bool) : flagByte c = 1 ↔ c = true := by
  cases c <;> decide

theorem flagByte_zero_or_one (c : Bool) : flagByte c = 0 ∨ flagByte c = 1 := by
  cases c
  · exact .inl rfl
  · exact .inr rfl

/-- Settles O41: the body blits the bytes at `I`, whose pixels and collision O39 gives. -/
theorem drawXorsTheSpriteAtI : Obligations.DrawXorsTheSpriteAtI := by
  intro x y n s hrange
  rcases exec_drw_cases x y n s with ⟨-, hexec⟩ | ⟨hn, hout, -⟩
  · obtain ⟨hpixel, hcollision⟩ :=
      blitXorsTheClippedSprite s.disp (s.reg x) (s.reg y) (Memory.bytes s.mem s.baseAddr n.toNat)
    refine ⟨_, _, hexec, rfl, hpixel, ?bit, ?collides, fun r hr => ?others, rfl, rfl, fun _ => rfl⟩
    case bit =>
      rw [emitFrame_reg, reg_setReg_same]
      exact flagByte_zero_or_one _
    case collides =>
      rw [emitFrame_reg, reg_setReg_same, flagByte_eq_one_iff]
      exact hcollision
    case others => rw [emitFrame_reg, reg_setReg_ne _ _ hr, setDisp_reg]
  · have hbase : s.baseAddr = s.i.toNat := rfl
    omega

end Sys2Proof.Machine
end

section
/-! The key skips, the delay timer's mutating read, and the transfers at `I` (45_keypad.md R203 to
R207; 46_timers.md R224, R228; 47_index_memory.md R240 to R246). -/

namespace Sys2Proof.Machine

/-! ### The key skips -/

theorem keyScan_reg_iff (s : State) (x : Reg) :
    keyScan (s.reg x) s.keyq = true ↔ s.keyBuffered x :=
  keyScan_iff (s.reg x) s.keyq

theorem exec_skpVx (x : Reg) (s : State) :
    exec (.skpVx x) s =
      .next { s with keyq := [], pc := if keyScan (s.reg x) s.keyq then s.pc + 2 else s.pc } :=
  congrArg Host.Outcome.next (skipIf_eq s.drainKeys _)

theorem exec_sknpVx (x : Reg) (s : State) :
    exec (.sknpVx x) s =
      .next { s with keyq := [], pc := if !keyScan (s.reg x) s.keyq then s.pc + 2 else s.pc } :=
  congrArg Host.Outcome.next (skipIf_eq s.drainKeys _)

/-- Settles O42: both bodies drain the buffer and skip by the outcome of the scan. -/
theorem keySkipsDrainTheBuffer : Obligations.KeySkipsDrainTheBuffer := by
  intro x s
  rw [exec_skpVx, exec_sknpVx, ← keyScan_reg_iff]
  cases keyScan (s.reg x) s.keyq <;> simp

/-! ### The delay timer's read -/

theorem exec_ldVxDt (x : Reg) (s : State) :
    exec (.ldVxDt x) s =
      .next ((s.setDt (timerReadMut s.cfg.timeScale s.dt s.now).2).setReg x
        (timerReadMut s.cfg.timeScale s.dt s.now).1) := rfl

/-- A mutating read keeps the start value, and clears the reference or keeps it (R224). -/
theorem timerReadMut_leaves (scale : Nat) (T : Timer) (t : Nat) :
    (timerReadMut scale T t).2 = { T with ref := none } ∨ (timerReadMut scale T t).2 = T := by
  rw [timerReadMut_timer]
  cases T.ref with
  | none => exact .inr rfl
  | some r => exact ite_eq_or_eq _ _ _

theorem timerReadMut_ref_none_iff (scale : Nat) {T : Timer} {r : Nat} (h : T.ref = some r)
    (t : Nat) :
    (timerReadMut scale T t).2.ref = none ↔ T.start.toNat ≤ (t - r) / 16 / scale := by
  simp only [timerReadMut_timer, h]
  split <;> simp [*]

/-- Settles O45: the value and the timer of the mutating read. -/
theorem delayReadIsTheDecayedValue : Obligations.DelayReadIsTheDecayedValue := by
  intro x s _
  have hleaves := timerReadMut_leaves s.cfg.timeScale s.dt s.now
  refine ⟨_, exec_ldVxDt x s, fun r hr => ?others, rfl, fun _ => rfl, ?start,
    fun hoff => ⟨?zero, ?stays⟩, fun r hr => ⟨?value, timerReadMut_ref_none_iff _ hr _, ?ref⟩⟩
  case others => rw [reg_setReg_ne _ _ hr, setDt_reg]
  case start => rcases hleaves with h | h <;> rw [setReg_dt, setDt_dt, h]
  case zero => rw [reg_setReg_same, timerReadMut_of_inactive hoff]
  case stays => rcases hleaves with h | h <;> rw [setReg_dt, setDt_dt, h]; exact hoff
  case value => simp only [reg_setReg_same, timerReadMut_value, hr]
  case ref =>
    rw [setReg_dt, setDt_dt]
    rcases hleaves with h | h <;> rw [h]
    · exact .inl rfl
    · exact .inr hr

/-- A later read of what a read leaves is not above it: an exhausted timer reads 0, and one that
runs on has lost at least as many ticks (R228). -/
theorem timerReadMut_again_le (scale : Nat) (T : Timer) (t d : Nat) :
    (timerReadMut scale (timerReadMut scale T t).2 (t + d)).1.toNat ≤
      (timerReadMut scale T t).1.toNat := by
  rcases timerReadMut_leaves scale T t with hleft | hleft <;> rw [hleft]
  · rw [timerReadMut_of_inactive rfl]
    exact Nat.zero_le _
  · simp only [timerReadMut_value]
    cases T.ref with
    | none => exact Nat.le_refl 0
    | some r =>
      have hticks : (t - r) / 16 / scale ≤ (t + d - r) / 16 / scale :=
        Nat.div_le_div_right (Nat.div_le_div_right (by omega))
      exact Nat.sub_le_sub_left hticks _

/-- Settles O48: the second read finds the timer the first one left. -/
theorem delayReadsNeverIncrease : Obligations.DelayReadsNeverIncrease := by
  intro x y d s u t hfirst hsecond
  cases (exec_ldVxDt x s).symm.trans hfirst
  cases (exec_ldVxDt y _).symm.trans hsecond
  rw [reg_setReg_same, reg_setReg_same]
  exact timerReadMut_again_le s.cfg.timeScale s.dt s.now d

/-! ### Transfers at `I` -/

/-- A transfer that leaves RAM takes the fault of R246, whichever of the four it is. -/
theorem exec_transfer_outside {i : Instr} {k : Nat} (s : State) (hsize : i.transferSize = some k)
    (hk : k ≠ 0) (hout : 0x1000 < s.baseAddr + k) :
    exec i s = .next (s.raiseAddress (encode i) (max s.baseAddr 0x1000)) := by
  cases i
  case drwVxVyN x y n =>
    cases hsize
    exact ((exec_drw_cases x y n s).resolve_left fun ⟨hin, _⟩ => by omega).2.2
  case ldBVx x =>
    cases hsize
    exact ((exec_ldBVx_cases x s).resolve_left fun ⟨hin, _⟩ => by omega).2
  case ldMemVx x =>
    cases hsize
    exact ((exec_ldMemVx_cases x s).resolve_left fun ⟨hin, _⟩ => by omega).2
  case ldVxMem x =>
    cases hsize
    exact ((exec_ldVxMem_cases x s).resolve_left fun ⟨hin, _⟩ => by omega).2
  all_goals cases hsize

/-- Settles O57: the fault of a transfer is one `raiseBody`. -/
theorem transferOutsideRamChangesNothing : Obligations.TransferOutsideRamChangesNothing := by
  intro i k s hsize hk hout
  have hout' : 0x1000 < s.baseAddr + k := by
    rw [State.baseAddr]
    omega
  exact ⟨_, exec_transfer_outside s hsize hk hout', raiseBody_faultedFrom s _ _ _⟩

/-- The offending address as the fault record has it: `I` itself when it is outside RAM (R264). -/
theorem ofNat_max_toNat (a : Word) :
    BitVec.ofNat 16 (max a.toNat 0x1000) = if 0x1000 ≤ a.toNat then a else 0x1000 := by
  by_cases h : 0x1000 ≤ a.toNat
  · rw [if_pos h, Nat.max_eq_left h, BitVec.ofNat_toNat, BitVec.setWidth_eq]
  · rw [if_neg h, Nat.max_eq_right (by omega)]
    rfl

/-- The same fault with the record as the statements about `Fx33`, `Fx55` and `Fx65` word it. -/
theorem transfer_outside_faulted {i : Instr} {k : Nat} (s : State) (hsize : i.transferSize = some k)
    (hk : k ≠ 0) (hout : 0x1000 < s.baseAddr + k) :
    ∃ t, exec i s = .next t ∧
      s.FaultedFrom t { cause := .addressFault, addr := s.pc - 2, word := some (encode i),
                        info := if 0x1000 ≤ s.i.toNat then s.i else 0x1000 } := by
  rw [← ofNat_max_toNat]
  exact ⟨_, exec_transfer_outside s hsize hk hout, raiseBody_faultedFrom s _ _ _⟩

/-- What a store of bytes inside RAM leaves: the bytes from `a` on, every other byte as before. -/
theorem readByte_writeAll {s t : State} (hram : s.ramCanonical) {a : Nat} {bs : List Byte}
    (hin : a + bs.length ≤ 0x1000) (ht : t.mem = Memory.writeAll s.mem a bs) :
    (∀ j, j < bs.length → t.readByte (a + j) = bs.getD j 0) ∧ s.SameRamOutside t a bs.length := by
  constructor
  · intro j hj
    rw [State.readByte, ht, read_writeAll hram a bs hin, if_pos (by omega), Nat.add_sub_cancel_left]
  · intro c hc
    rw [State.readByte, ht, read_writeAll hram a bs hin, if_neg hc, State.readByte]

@[simp] theorem bcdDigits_length (b : Byte) : (bcdDigits b).length = 3 := rfl

/-- Settles O54: inside RAM the store of the three digits, else the fault of a transfer. -/
theorem decimalDigitsAreStoredAtI : Obligations.DecimalDigitsAreStoredAtI := by
  intro x s hram
  have hbase : s.baseAddr = s.i.toNat := rfl
  refine ⟨fun hin => ?stored, fun hout => transfer_outside_faulted s rfl (by decide) (by omega)⟩
  rcases exec_ldBVx_cases x s with ⟨hfit, hexec⟩ | ⟨hout, -⟩
  · obtain ⟨hdigit, hother⟩ := readByte_writeAll (s := s)
      (t := { s with mem := Memory.writeAll s.mem s.baseAddr (bcdDigits (s.reg x)) }) hram hfit rfl
    have hdigits := bcdDigits_toNat (s.reg x)
    simp only [bcdDigits, List.map_cons, List.map_nil, List.cons.injEq, and_true] at hdigits
    obtain ⟨hhundreds, htens, hones⟩ := hdigits
    refine ⟨_, hexec, ?_, ?_, ?_, hother, rfl⟩
    · exact (congrArg BitVec.toNat (hdigit 0 (by simp))).trans hhundreds
    · exact (congrArg BitVec.toNat (hdigit 1 (by simp))).trans htens
    · exact (congrArg BitVec.toNat (hdigit 2 (by simp))).trans hones
  · omega

/-- `I` after a block transfer (R244, R245). -/
theorem add_ofNat_toNat (i : Word) (x : Reg) :
    (i + BitVec.ofNat 16 (x.val + 1)).toNat = (i.toNat + x.val + 1) % 65536 := by
  rw [BitVec.toNat_add, BitVec.toNat_ofNat]
  omega

/-- Settles O55: inside RAM the store of `V[0]` to `V[x]`, else the fault of a transfer. -/
theorem blockStoreAdvancesIndex : Obligations.BlockStoreAdvancesIndex := by
  intro x s hram
  have hbase : s.baseAddr = s.i.toNat := rfl
  refine ⟨fun hin => ?stored, fun hout => transfer_outside_faulted s rfl (by omega) (by omega)⟩
  rcases exec_ldMemVx_cases x s with ⟨hfit, hexec⟩ | ⟨hout, -⟩
  · have hlen : (s.regsUpTo x).length = x.val + 1 := regsUpTo_length s x
    obtain ⟨hbyte, hother⟩ := readByte_writeAll (s := s)
      (t := { s with
        mem := Memory.writeAll s.mem s.baseAddr (s.regsUpTo x)
        i := s.i + BitVec.ofNat 16 (x.val + 1) }) hram (hlen ▸ hfit) rfl
    rw [hlen] at hbyte hother
    refine ⟨_, hexec, fun r hr => ?_, hother, add_ofNat_toNat s.i x, fun _ => rfl, rfl⟩
    rw [hbyte r.val (Nat.lt_succ_of_le hr), regsUpTo_getD s x r hr]
  · omega

/-- Settles O56: inside RAM the load of `V[0]` to `V[x]`, else the fault of a transfer. -/
theorem blockLoadAdvancesIndex : Obligations.BlockLoadAdvancesIndex := by
  intro x s
  have hbase : s.baseAddr = s.i.toNat := rfl
  refine ⟨fun hin => ?loaded, fun hout => transfer_outside_faulted s rfl (by omega) (by omega)⟩
  rcases exec_ldVxMem_cases x s with ⟨hfit, hexec⟩ | ⟨hout, -⟩
  · have hreg := reg_loadRegs s 0 (Memory.bytes s.mem s.baseAddr (x.val + 1))
      (by rw [bytes_length]; omega)
    simp only [bytes_length, Nat.zero_add, Nat.zero_le, true_and, Nat.sub_zero] at hreg
    refine ⟨_, hexec, fun r hr => ?_, fun r hr => ?_, add_ofNat_toNat s.i x, rfl, fun _ => rfl⟩
    · have hlt : r.val < x.val + 1 := Nat.lt_succ_of_le hr
      exact (hreg r).trans ((if_pos hlt).trans (bytes_getD s.mem s.baseAddr _ r.val hlt))
    · exact (hreg r).trans (if_neg (by have : x.val < r.val := hr; omega))
  · omega

end Sys2Proof.Machine
end

section
/-! What a body can change, said once for every instruction: it takes its one fault, or it writes
the fields of its own rule (20_memory.md R61; 10_state.md R21, R26, R29, R34; 60_exceptions.md
R266). -/

namespace Sys2Proof.Machine

/-- `t` is `s` but for the fields that the instruction writes when it takes no fault. -/
def State.WrittenBy (s t : State) : Instr → Prop
  | .cls => t = { s with disp := t.disp, frames := t.frames }
  | .ret | .call _ => t = { s with stack := t.stack, pc := t.pc }
  | .sys _ | .brk => t = { s with run := .halted }
  | .jp _ | .jpV0Nnn _ | .seVxNn _ _ | .sneVxNn _ _ | .seVxVy _ _ | .sneVxVy _ _ =>
    t = { s with pc := t.pc }
  | .skpVx _ | .sknpVx _ => t = { s with pc := t.pc, keyq := t.keyq }
  | .ldVxNn _ _ | .addVxNn _ _ | .ldVxVy _ _ | .orVxVy _ _ | .andVxVy _ _ | .xorVxVy _ _
  | .addVxVy _ _ | .subVxVy _ _ | .shrVxVy _ _ | .subnVxVy _ _ | .shlVxVy _ _ | .rndVxNn _ _ =>
    t = { s with v := t.v }
  | .ldINnn _ | .addIVx _ | .ldFVx _ => t = { s with i := t.i }
  | .drwVxVyN _ _ _ => t = { s with v := t.v, disp := t.disp, frames := t.frames }
  | .ldVxDt _ => t = { s with v := t.v, dt := t.dt }
  | .ldVxK _ => t = { s with phase := t.phase }
  | .ldDtVx _ => t = { s with dt := t.dt }
  | .ldStVx _ => t = { s with st := t.st }
  | .ldBVx _ => t = { s with mem := t.mem }
  | .ldMemVx _ => t = { s with mem := t.mem, i := t.i }
  | .ldVxMem _ => t = { s with v := t.v, i := t.i }

/-- `t` is `s` with the one fault taken that the body of `i` can raise (R273). -/
def State.FaultedBy (s t : State) (i : Instr) : Prop :=
  ∃ f, i.bodyFault = some f.cause ∧ f.addr = s.pc - 2 ∧ f.word = some (encode i) ∧ s.FaultedFrom t f

theorem skipIf_frame (s : State) (c : Bool) : s.skipIf c = { s with pc := (s.skipIf c).pc } := by
  cases c <;> rfl

/-- A body takes its fault or writes its fields. -/
theorem exec_effect {i : Instr} {s t : State} (h : exec i s = .next t) :
    s.FaultedBy t i ∨ s.WrittenBy t i := by
  cases i
  case ret =>
    rcases exec_ret_cases s with ⟨_, _, -, hs⟩ | ⟨-, hs⟩ <;> cases hs.symm.trans h
    · exact .inr rfl
    · exact .inl ⟨_, rfl, rfl, rfl, rfl⟩
  case call nnn =>
    rcases exec_call_cases nnn s with ⟨-, hs⟩ | ⟨-, hs⟩ <;> cases hs.symm.trans h
    · exact .inr rfl
    · exact .inl ⟨_, rfl, rfl, rfl, rfl⟩
  case drwVxVyN x y n =>
    rcases exec_drw_cases x y n s with ⟨-, hs⟩ | ⟨-, -, hs⟩ <;> cases hs.symm.trans h
    · exact .inr rfl
    · exact .inl ⟨_, rfl, rfl, rfl, rfl⟩
  case ldBVx x =>
    rcases exec_ldBVx_cases x s with ⟨-, hs⟩ | ⟨-, hs⟩ <;> cases hs.symm.trans h
    · exact .inr rfl
    · exact .inl ⟨_, rfl, rfl, rfl, rfl⟩
  case ldMemVx x =>
    rcases exec_ldMemVx_cases x s with ⟨-, hs⟩ | ⟨-, hs⟩ <;> cases hs.symm.trans h
    · exact .inr rfl
    · exact .inl ⟨_, rfl, rfl, rfl, rfl⟩
  case ldVxMem x =>
    rcases exec_ldVxMem_cases x s with ⟨-, hs⟩ | ⟨-, hs⟩ <;> cases hs.symm.trans h
    · exact .inr rfl
    · exact .inl ⟨_, rfl, rfl, rfl, rfl⟩
  case seVxNn | sneVxNn | seVxVy | sneVxVy =>
    cases h
    exact .inr (skipIf_frame s _)
  case skpVx x =>
    cases (exec_skpVx x s).symm.trans h
    exact .inr rfl
  case sknpVx x =>
    cases (exec_sknpVx x s).symm.trans h
    exact .inr rfl
  all_goals cases h; exact .inr rfl

/-! ### One field at a time -/

section
variable {i : Instr} {s t : State}

theorem exec_mem (h : exec i s = .next t) (hbcd : ∀ x, i ≠ .ldBVx x)
    (hstore : ∀ x, i ≠ .ldMemVx x) : t.mem = s.mem := by
  rcases exec_effect h with ⟨f, -, -, -, hf⟩ | hw
  · exact (congrArg State.mem hf :)
  · cases i
    case ldBVx x => exact absurd rfl (hbcd x)
    case ldMemVx x => exact absurd rfl (hstore x)
    all_goals exact (congrArg State.mem hw :)

theorem exec_stack (h : exec i s = .next t) (hcall : ∀ nnn, i ≠ .call nnn) (hret : i ≠ .ret) :
    t.stack = s.stack := by
  rcases exec_effect h with ⟨f, -, -, -, hf⟩ | hw
  · exact (congrArg State.stack hf :)
  · cases i
    case call nnn => exact absurd rfl (hcall nnn)
    case ret => exact absurd rfl hret
    all_goals exact (congrArg State.stack hw :)

theorem exec_disp_frames (h : exec i s = .next t) (hcls : i ≠ .cls)
    (hdraw : ∀ x y n, i ≠ .drwVxVyN x y n) : t.disp = s.disp ∧ t.frames = s.frames := by
  rcases exec_effect h with ⟨f, -, -, -, hf⟩ | hw
  · exact ⟨(congrArg State.disp hf :), (congrArg State.frames hf :)⟩
  · cases i
    case cls => exact absurd rfl hcls
    case drwVxVyN x y n => exact absurd rfl (hdraw x y n)
    all_goals exact ⟨(congrArg State.disp hw :), (congrArg State.frames hw :)⟩

theorem exec_i (h : exec i s = .next t) (hliteral : ∀ nnn, i ≠ .ldINnn nnn)
    (hadd : ∀ x, i ≠ .addIVx x) (hglyph : ∀ x, i ≠ .ldFVx x) (hstore : ∀ x, i ≠ .ldMemVx x)
    (hload : ∀ x, i ≠ .ldVxMem x) : t.i = s.i := by
  rcases exec_effect h with ⟨f, -, -, -, hf⟩ | hw
  · exact (congrArg State.i hf :)
  · cases i
    case ldINnn nnn => exact absurd rfl (hliteral nnn)
    case addIVx x => exact absurd rfl (hadd x)
    case ldFVx x => exact absurd rfl (hglyph x)
    case ldMemVx x => exact absurd rfl (hstore x)
    case ldVxMem x => exact absurd rfl (hload x)
    all_goals exact (congrArg State.i hw :)

theorem exec_dt (h : exec i s = .next t) (hset : ∀ x, i ≠ .ldDtVx x) (hread : ∀ x, i ≠ .ldVxDt x) :
    t.dt = s.dt := by
  rcases exec_effect h with ⟨f, -, -, -, hf⟩ | hw
  · exact (congrArg State.dt hf :)
  · cases i
    case ldDtVx x => exact absurd rfl (hset x)
    case ldVxDt x => exact absurd rfl (hread x)
    all_goals exact (congrArg State.dt hw :)

theorem exec_st (h : exec i s = .next t) (hset : ∀ x, i ≠ .ldStVx x) : t.st = s.st := by
  rcases exec_effect h with ⟨f, -, -, -, hf⟩ | hw
  · exact (congrArg State.st hf :)
  · cases i
    case ldStVx x => exact absurd rfl (hset x)
    all_goals exact (congrArg State.st hw :)

theorem exec_keyq (h : exec i s = .next t) (hskp : ∀ x, i ≠ .skpVx x) (hsknp : ∀ x, i ≠ .sknpVx x) :
    t.keyq = s.keyq := by
  rcases exec_effect h with ⟨f, -, -, -, hf⟩ | hw
  · exact (congrArg State.keyq hf :)
  · cases i
    case skpVx x => exact absurd rfl (hskp x)
    case sknpVx x => exact absurd rfl (hsknp x)
    all_goals exact (congrArg State.keyq hw :)

theorem exec_phase (h : exec i s = .next t) (hwait : ∀ x, i ≠ .ldVxK x) : t.phase = s.phase := by
  rcases exec_effect h with ⟨f, -, -, -, hf⟩ | hw
  · exact (congrArg State.phase hf :)
  · cases i
    case ldVxK x => exact absurd rfl (hwait x)
    all_goals exact (congrArg State.phase hw :)

/-- The fields that no instruction writes. -/
theorem exec_unwritten (h : exec i s = .next t) :
    t = { t with
      abortPending := s.abortPending, haltPending := s.haltPending, cfg := s.cfg, now := s.now
      debugOut := s.debugOut, moves := s.moves, supply := s.supply, freeCtr := s.freeCtr } := by
  rcases exec_effect h with ⟨f, -, -, -, hf⟩ | hw
  · cases hf; rfl
  · cases i
    all_goals
      cases t
      cases hw
      rfl

/-! ### Run state, fault record and program counter -/

/-- A body takes its fault, or it leaves the record and the run state but for the two halts. -/
theorem exec_run (h : exec i s = .next t) :
    s.FaultedBy t i ∨ (t.fault = s.fault ∧
      (t.run = s.run ∨ t.run = .halted ∧ ((∃ nnn, i = .sys nnn) ∨ i = .brk))) := by
  refine (exec_effect h).imp_right fun hw => ?_
  cases i
  case sys nnn =>
    exact ⟨(congrArg State.fault hw :), .inr ⟨(congrArg State.run hw :), .inl ⟨nnn, rfl⟩⟩⟩
  case brk => exact ⟨(congrArg State.fault hw :), .inr ⟨(congrArg State.run hw :), .inr rfl⟩⟩
  all_goals exact ⟨(congrArg State.fault hw :), .inl (congrArg State.run hw :)⟩

theorem skipIf_pc (s : State) (c : Bool) : (s.skipIf c).pc = if c then s.pc + 2 else s.pc := by
  rw [skipIf_eq]

/-- Every body but those of the jumps, the call and the return leaves `pc`, but for a skip
(10_state.md R26). -/
theorem exec_pc (h : exec i s = .next t) (hjp : ∀ nnn, i ≠ .jp nnn) (hcall : ∀ nnn, i ≠ .call nnn)
    (hjpV0 : ∀ nnn, i ≠ .jpV0Nnn nnn) (hret : i ≠ .ret) :
    (s.skips i → t.pc = s.pc + 2) ∧ (¬ s.skips i → t.pc = s.pc) := by
  cases i
  case jp nnn => exact absurd rfl (hjp nnn)
  case call nnn => exact absurd rfl (hcall nnn)
  case jpV0Nnn nnn => exact absurd rfl (hjpV0 nnn)
  case ret => exact absurd rfl hret
  case seVxNn | sneVxNn | seVxVy | sneVxVy =>
    cases h
    simp [skipIf_pc, State.skips]
  case skpVx x =>
    cases (exec_skpVx x s).symm.trans h
    simp [keyScan_reg_iff, State.skips]
  case sknpVx x =>
    cases (exec_sknpVx x s).symm.trans h
    simp [← keyScan_reg_iff, State.skips]
  all_goals
    refine ⟨False.elim, fun _ => ?_⟩
    rcases exec_effect h with ⟨f, -, -, -, hf⟩ | hw
    · exact (congrArg State.pc hf :)
    · exact (congrArg State.pc hw :)

/-- The same without the condition of the skip. -/
theorem exec_pc_or_skip (h : exec i s = .next t) (hjp : ∀ nnn, i ≠ .jp nnn)
    (hcall : ∀ nnn, i ≠ .call nnn) (hjpV0 : ∀ nnn, i ≠ .jpV0Nnn nnn) (hret : i ≠ .ret) :
    t.pc = s.pc + 2 ∨ t.pc = s.pc := by
  obtain ⟨hskip, hstay⟩ := exec_pc h hjp hcall hjpV0 hret
  exact (em (s.skips i)).imp hskip hstay

end

/-! ### The statements about every instruction -/

/-- Settles O59: field by field from what a body can change. -/
theorem eachStoreHasItsOwnWriters : Obligations.EachStoreHasItsOwnWriters := by
  intro i s t h
  have hrest := exec_unwritten h
  refine ⟨fun hbcd hstore a => ?_, exec_stack h, exec_disp_frames h, exec_i h, exec_dt h, exec_st h,
    exec_keyq h, exec_phase h, (congrArg State.cfg hrest :), (congrArg State.now hrest :),
    (congrArg State.abortPending hrest :), (congrArg State.haltPending hrest :),
    (congrArg State.debugOut hrest :)⟩
  rw [State.readByte, exec_mem h hbcd hstore, State.readByte]

/-- Settles O58: the instructions that write registers by their rules, the others by their
fields. -/
theorem registersOutsideTheWriteSetStay : Obligations.RegistersOutsideTheWriteSetStay := by
  intro i s t h r hr
  rcases exec_effect h with ⟨f, -, -, -, hf⟩ | hw
  · exact (congrArg (State.reg · r) hf :)
  · cases i
    case ldVxNn | addVxNn | ldVxVy | orVxVy | andVxVy | xorVxVy | rndVxNn | ldVxDt =>
      cases h
      exact reg_setReg_ne _ _ (by simpa [Instr.writesReg] using hr)
    case addVxVy | subVxVy | shrVxVy | subnVxVy | shlVxVy =>
      cases h
      obtain ⟨hx, hF⟩ := not_or.1 (show ¬ (_ ∨ _) by simpa [Instr.writesReg] using hr)
      exact (setRegFlag_frame _ _ _).1 r hx hF
    case drwVxVyN x y n =>
      rcases exec_drw_cases x y n s with ⟨-, hs⟩ | ⟨-, -, hs⟩ <;> cases hs.symm.trans h
      · rw [emitFrame_reg]
        exact reg_setReg_ne _ _ (by simpa [Instr.writesReg] using hr)
      · rfl
    case ldVxMem x =>
      rcases exec_ldVxMem_cases x s with ⟨-, hs⟩ | ⟨-, hs⟩ <;> cases hs.symm.trans h
      · have hout : x.val < r.val := by simpa [Instr.writesReg] using hr
        have hload := reg_loadRegs s 0 (Memory.bytes s.mem s.baseAddr (x.val + 1))
          (by rw [bytes_length]; omega) r
        exact hload.trans (if_neg (by rw [bytes_length]; omega))
      · rfl
    all_goals exact (congrArg (State.reg · r) hw :)

/-- Settles O60: a body that leaves a running engine faulted has taken its fault. -/
theorem bodyFaultsArePrecise : Obligations.BodyFaultsArePrecise := by
  intro i s t h hrun hfaulted
  rcases exec_run h with ⟨f, hcause, haddr, hword, hf⟩ | ⟨-, hsame | ⟨hhalted, -⟩⟩
  · exact ⟨f, (congrArg State.fault hf :), hcause, haddr, hword, hf⟩
  · rw [hsame, hrun] at hfaulted
    cases hfaulted
  · rw [hhalted] at hfaulted
    cases hfaulted

end Sys2Proof.Machine
end

section
/-! What a step can do, said once: the cases of a step that answers a next state, and its two
refusals (40_cycle_and_control_flow.md R120, R121, R128; 45_keypad.md R208; 60_exceptions.md R270 to
R273). -/

namespace Sys2Proof.Machine

/-! ### The moves of the other agents -/

theorem step_clock {s : State} {ms : Nat} (h : s.nextMove = .clock ms) :
    step s = .next { s.afterMove with now := s.now + ms } := by
  rw [step_eq, h]
  rfl

theorem step_key {s : State} {c : KeyCode} (h : s.nextMove = .key c) :
    step s = .next (s.afterMove.whileRunning { s.afterMove with keyq := s.keyq ++ [c] }) := by
  rw [step_eq, h]
  rfl

theorem step_interrupt {s : State} (h : s.nextMove = .interrupt) :
    step s = .next (s.afterMove.whileRunning { s.afterMove with abortPending := true }) := by
  rw [step_eq, h]
  rfl

theorem step_haltRequest {s : State} (h : s.nextMove = .haltRequest) :
    step s = .next (s.afterMove.whileRunning { s.afterMove with haltPending := true }) := by
  rw [step_eq, h]
  rfl

theorem step_reset {s : State} {kind : ResetKind} {rom : List Byte}
    (h : s.nextMove = .reset kind rom) : step s = .next (s.afterMove.resetWith kind rom) := by
  rw [step_eq, h]
  rfl

theorem step_configure {s : State} {c : Configuration} (h : s.nextMove = .configure c)
    (hr : s.run ≠ .running) : step s = .next { s.afterMove with cfg := c } := by
  rw [step_eq, h]
  exact if_neg hr

theorem step_configure_running {s : State} {c : Configuration} (h : s.nextMove = .configure c)
    (hr : s.run = .running) : step s = .refused .reconfiguredWhileRunning := by
  rw [step_eq, h]
  exact if_pos hr

theorem whileRunning_of_running {s : State} (h : s.run = .running) (t : State) :
    s.whileRunning t = t :=
  if_pos h

theorem whileRunning_of_not_running {s : State} (h : s.run ≠ .running) (t : State) :
    s.whileRunning t = s :=
  if_neg h

/-- Settles O18: on a running engine each event is delivered. -/
theorem eventsOnlyReachTheirOwnState : Obligations.EventsOnlyReachTheirOwnState := by
  intro s hr
  have hr' : s.afterMove.run = .running := hr
  refine ⟨fun c h => ?key, fun h => ?interrupt, fun h => ?haltRequest, fun ms h => step_clock h⟩
  case key => rw [step_key h, whileRunning_of_running hr']
  case interrupt => rw [step_interrupt h, whileRunning_of_running hr']
  case haltRequest => rw [step_haltRequest h, whileRunning_of_running hr']

theorem engineTurn_of_not_running {s : State} (h : s.run ≠ .running) : engineTurn s = .next s := by
  rcases engineTurn_cases s with ⟨-, hturn⟩ | ⟨hr, -⟩ | ⟨hr, -⟩
  · exact hturn
  · exact absurd hr h
  · exact absurd hr h

/-- Settles O12: the engine's turn and the events change nothing in a terminal state. -/
theorem terminalStatesAreFinal : Obligations.TerminalStatesAreFinal := by
  intro s hr
  have hr' : s.afterMove.run ≠ .running := hr
  refine ⟨fun ms h => step_clock h, fun c h => step_configure h hr, fun hreset hconf hclock => ?_⟩
  cases hm : s.nextMove with
  | engine => rw [step_engine hm, engineTurn_of_not_running hr']
  | clock ms => exact absurd hm (hclock ms)
  | key c => rw [step_key hm, whileRunning_of_not_running hr']
  | interrupt => rw [step_interrupt hm, whileRunning_of_not_running hr']
  | haltRequest => rw [step_haltRequest hm, whileRunning_of_not_running hr']
  | reset kind rom => exact absurd hm (hreset kind rom)
  | configure c => exact absurd hm (hconf c)

/-! ### The cycle -/

/-- The two bytes at `pc`, where both are in RAM, are a word that can be fetched. -/
theorem fetches_wordOfBytes {s : State} (h : s.pc.toNat ≤ 0xFFE) :
    s.fetches (wordOfBytes (s.readByte s.pc.toNat) (s.readByte (s.pc.toNat + 1))) := by
  refine ⟨h, ?_, ?_⟩
  · rw [wordOfBytes, extract_append_high _ _ 8 8 (Nat.le_refl 8), Nat.sub_self, extract_whole]
  · rw [wordOfBytes, extract_append_low _ _ 0 8 (Nat.le_refl 8), extract_whole]

theorem decodeWord_of_decode_pair {hi lo : Byte} {i : Instr} (h : decode [hi, lo] = .ok (i, [])) :
    decodeWord (wordOfBytes hi lo) = .ok i := by
  unfold decode at h
  cases hd : decodeWord (wordOfBytes hi lo) with
  | error e => simp [hd] at h
  | ok j => simpa [hd] using h

/-- Settles O6: the bytes at `pc` are fetched as a word, whose body runs. -/
theorem stepRunsTheFetchedInstruction : Obligations.StepRunsTheFetchedInstruction := by
  intro s i hs hpc hdecode
  obtain ⟨t, ht⟩ := exec_next i s.inBody
  rw [step_of_fetches hs (fetches_wordOfBytes hpc) (decodeWord_of_decode_pair hdecode) ht, ht,
    mapNext]

theorem step_of_decodeFault {s : State} {w : Word} {e : DecodeError} (hs : s.CycleReady)
    (hw : s.fetches w) (hd : decodeWord w = .error e) :
    step s = .next ((s.inBody.raiseBody .decodeFault w 0).expose (some w)) := by
  have hread : s.afterMove.readWord s.afterMove.pc.toNat = .ok w := readWord_of_fetches hw
  simp only [step_of_cycleReady hs, cycle, hread, dispatch, hd, mapNext]
  rfl

theorem step_of_fetchFault {s : State} (hs : s.CycleReady) (hpc : 0xFFE < s.pc.toNat) :
    step s = .next ((s.afterMove.raiseFetch (max s.pc.toNat 0x1000)).expose none) := by
  rw [step_of_cycleReady hs]
  rcases cycle_cases s.afterMove with ⟨-, hcycle⟩ | ⟨w, hin, -⟩
  · exact hcycle
  · exact absurd hin (Nat.not_le_of_lt hpc)

/-- In a body `pc` is 2 past the instruction's address (log 18). -/
theorem inBody_pc_sub (s : State) : s.inBody.pc - 2 = s.pc := BitVec.add_sub_cancel s.pc 2

theorem decodeWord_error_of_noRow {w : Word} (h : ∀ k, ¬ selectsRow w k) :
    ∃ e, decodeWord w = .error e := by
  cases hd : decodeWord w with
  | error e => exact ⟨e, rfl⟩
  | ok i => exact absurd ((decodeFollowsTheOpcodeTable w i.row).2 ⟨i, hd, rfl⟩) (h i.row)

/-- Settles O7: a word of no row does not decode (O3), so the dispatch raises the fault. -/
theorem wordOfNoRowFaults : Obligations.WordOfNoRowFaults := by
  refine ⟨rfl, fun s w hs hw hrow => ?_⟩
  obtain ⟨e, hd⟩ := decodeWord_error_of_noRow hrow
  refine ⟨_, ?_, step_of_decodeFault hs hw hd⟩
  rw [← inBody_pc_sub s]
  exact raiseBody_faultedFrom s.inBody _ _ _

/-- Settles O8: the fetch faults with the lowest address outside RAM. -/
theorem fetchOutsideRamFaults : Obligations.FetchOutsideRamFaults := by
  intro s hs hpc
  refine ⟨_, ?_, step_of_fetchFault hs hpc⟩
  have hinfo : BitVec.ofNat 16 (max s.pc.toNat 0x1000) =
      if 0xFFF < s.pc.toNat then s.pc else 0x1000 := ofNat_max_toNat s.pc
  rw [← hinfo]
  rfl

/-- Settles O9: the two pending bits are looked at in this order, before the fetch. -/
theorem interruptComesBeforeHaltRequest : Obligations.InterruptComesBeforeHaltRequest := by
  intro s hm hr hp hc
  rw [step_engine hm]
  constructor
  · intro ha
    simp [engineTurn, fetchTurn, hr, hp, hc, ha, State.setRun]
  · intro ha hh
    simp [engineTurn, fetchTurn, hr, hp, hc, ha, hh, State.setRun]

/-! ### The cases of a step -/

/-- Everything that a step which answers a next state can have done. -/
inductive StepCase (s : State) : State → Prop where
  /-- the turn of an engine in a terminal state -/
  | idle (hm : s.engineMoves) (hr : s.run ≠ .running) : StepCase s s.afterMove
  /-- a cycle start with the interrupt event pending -/
  | abort (hm : s.engineMoves) (hr : s.run = .running) (hp : s.phase = .fetch)
      (ha : s.abortPending = true) : StepCase s (s.afterMove.setRun .aborted)
  /-- a cycle start with a halt request pending alone -/
  | halt (hm : s.engineMoves) (hr : s.run = .running) (hp : s.phase = .fetch)
      (ha : s.abortPending = false) (hh : s.haltPending = true) :
      StepCase s (s.afterMove.setRun .halted)
  /-- a cycle whose fetch faults -/
  | fetchFault (hs : s.CycleReady) (hpc : 0xFFE < s.pc.toNat) :
      StepCase s ((s.afterMove.raiseFetch (max s.pc.toNat 0x1000)).expose none)
  /-- a cycle whose word selects no row -/
  | decodeFault (hs : s.CycleReady) {w : Word} (hw : s.fetches w) {e : DecodeError}
      (hd : decodeWord w = .error e) :
      StepCase s ((s.inBody.raiseBody .decodeFault w 0).expose (some w))
  /-- a cycle that runs a body -/
  | body (hs : s.CycleReady) {w : Word} (hw : s.fetches w) {i : Instr} (hd : decodeWord w = .ok i)
      {t : State} (ht : exec i s.inBody = .next t) : StepCase s (t.expose (some w))
  /-- the engine's turn in a key wait -/
  | wait (hm : s.engineMoves) (hr : s.run = .running) {r : Reg} (hp : s.phase = .waitKey r) :
      StepCase s (s.afterMove.waitTurn r)
  /-- time passes -/
  | clock (ms : Nat) : StepCase s { s.afterMove with now := s.now + ms }
  /-- a key press, the interrupt event or a halt request -/
  | event (q : List KeyCode) (a h : Bool) :
      StepCase s { s.afterMove with keyq := q, abortPending := a, haltPending := h }
  /-- a reset -/
  | reset {kind : ResetKind} {rom : List Byte} (hm : s.nextMove = .reset kind rom) :
      StepCase s (s.afterMove.resetWith kind rom)
  /-- the configuration of an engine in a terminal state -/
  | configure (hr : s.run ≠ .running) (c : Configuration) : StepCase s { s.afterMove with cfg := c }

/-- A cycle that starts answers a next state, by one of three cases. -/
theorem step_cycle {s : State} (hs : s.CycleReady) : ∃ t, step s = .next t ∧ StepCase s t := by
  by_cases hpc : s.pc.toNat ≤ 0xFFE
  · have hw := fetches_wordOfBytes hpc
    cases hd : decodeWord (wordOfBytes (s.readByte s.pc.toNat) (s.readByte (s.pc.toNat + 1))) with
    | error e => exact ⟨_, step_of_decodeFault hs hw hd, .decodeFault hs hw hd⟩
    | ok i =>
      obtain ⟨t, ht⟩ := exec_next i s.inBody
      exact ⟨_, step_of_fetches hs hw hd ht, .body hs hw hd ht⟩
  · exact ⟨_, step_of_fetchFault hs (Nat.lt_of_not_le hpc), .fetchFault hs (Nat.lt_of_not_le hpc)⟩

/-- An event that a terminal state drops leaves its own fields as they were. -/
theorem StepCase.event_whileRunning (s : State) (q : List KeyCode) (a h : Bool) :
    StepCase s (s.afterMove.whileRunning
      { s.afterMove with keyq := q, abortPending := a, haltPending := h }) := by
  by_cases hr : s.afterMove.run = .running
  · rw [whileRunning_of_running hr]
    exact .event q a h
  · rw [whileRunning_of_not_running hr]
    exact .event s.keyq s.abortPending s.haltPending

/-- The engine's turn answers a next state by one of the cases, or it is refused. -/
theorem step_engine_outcome {s : State} (hm : s.engineMoves) :
    (∃ t, step s = .next t ∧ StepCase s t) ∨
      (s.run = .running ∧ ¬ s.cfg.valid ∧ step s = .refused .configurationOutOfRange) := by
  have hstep := step_engine hm
  rcases engineTurn_cases s.afterMove with
    ⟨hr, ht⟩ | ⟨hr, hc, ht⟩ |
      ⟨hr, hc, ⟨hp, ha, ht⟩ | ⟨hp, ha, hh, ht⟩ | ⟨hp, ha, hh, -⟩ | ⟨r, hp, ht⟩⟩
  · exact .inl ⟨_, hstep.trans ht, .idle hm hr⟩
  · exact .inr ⟨hr, hc, hstep.trans ht⟩
  · exact .inl ⟨_, hstep.trans ht, .abort hm hr hp ha⟩
  · exact .inl ⟨_, hstep.trans ht, .halt hm hr hp ha hh⟩
  · exact .inl (step_cycle ⟨hm, hr, hp, hc, ha, hh⟩)
  · exact .inl ⟨_, hstep.trans ht, .wait hm hr hp⟩

/-- Every step answers a next state by one of the cases, or it is one of the two refusals. -/
theorem step_outcome (s : State) :
    (∃ t, step s = .next t ∧ StepCase s t) ∨
      (s.engineMoves ∧ s.run = .running ∧ ¬ s.cfg.valid ∧
        step s = .refused .configurationOutOfRange) ∨
      (s.run = .running ∧ (∃ c, s.nextMove = .configure c) ∧
        step s = .refused .reconfiguredWhileRunning) := by
  cases hm : s.nextMove with
  | engine => exact (step_engine_outcome hm).imp_right fun h => .inl ⟨hm, h⟩
  | clock ms => exact .inl ⟨_, step_clock hm, .clock ms⟩
  | key c => exact .inl ⟨_, step_key hm, .event_whileRunning s _ _ _⟩
  | interrupt => exact .inl ⟨_, step_interrupt hm, .event_whileRunning s _ _ _⟩
  | haltRequest => exact .inl ⟨_, step_haltRequest hm, .event_whileRunning s _ _ _⟩
  | reset kind rom => exact .inl ⟨_, step_reset hm, .reset hm⟩
  | configure c =>
    by_cases hr : s.run = .running
    · exact .inr (.inr ⟨hr, ⟨c, rfl⟩, step_configure_running hm hr⟩)
    · exact .inl ⟨_, step_configure hm hr, .configure hr c⟩

theorem stepCase_of_step {s t : State} (h : step s = .next t) : StepCase s t := by
  rcases step_outcome s with ⟨u, hu, hcase⟩ | ⟨-, -, -, hrefused⟩ | ⟨-, -, hrefused⟩
  · cases hu.symm.trans h
    exact hcase
  · cases hrefused.symm.trans h
  · cases hrefused.symm.trans h

/-- Settles O14: the outcomes of a step, without what its cases say of the next state. -/
theorem everyStepCompletesUnlessRefused : Obligations.EveryStepCompletesUnlessRefused := fun s =>
  (step_outcome s).imp_left fun ⟨t, ht, _⟩ => ⟨t, ht⟩

end Sys2Proof.Machine
end

section
/-! The cycle and the key wait as a whole: where `pc` ends, that a skip passes over any word, how a
wait ends, and what changes the run state (10_state.md R26; 41_skips.md R140; 45_keypad.md R208;
40_cycle_and_control_flow.md R121). -/

namespace Sys2Proof.Machine

/-- The debug port adds to its own record only. -/
theorem expose_exists (s : State) (w : Option Word) :
    ∃ out, s.expose w = { s with debugOut := out } :=
  ⟨_, expose_eq s w⟩

@[simp] theorem expose_run (s : State) (w : Option Word) : (s.expose w).run = s.run := by
  rw [expose_eq]

@[simp] theorem expose_stack (s : State) (w : Option Word) : (s.expose w).stack = s.stack := by
  rw [expose_eq]

@[simp] theorem expose_fault (s : State) (w : Option Word) : (s.expose w).fault = s.fault := by
  rw [expose_eq]

/-- A step over a word that decodes has run the body. -/
theorem exec_of_step {s t : State} {w : Word} {i : Instr} (hs : s.CycleReady) (hw : s.fetches w)
    (hd : decodeWord w = .ok i) (h : step s = .next t) :
    ∃ u, exec i s.inBody = .next u ∧ t = u.expose (some w) := by
  obtain ⟨u, hu⟩ := exec_next i s.inBody
  cases (step_of_fetches hs hw hd hu).symm.trans h
  exact ⟨u, hu, rfl⟩

/-- The condition of a skip does not depend on `pc`. -/
theorem inBody_skips (s : State) (i : Instr) : s.inBody.skips i ↔ s.skips i := by
  cases i <;> rfl

theorem add_two_add_two (a : Word) : a + 2 + 2 = a + 4 := BitVec.add_assoc a 2 2

/-- A body that faults leaves the engine faulted. -/
theorem raiseBody_run (s : State) (cause : FaultCause) (w info : Word) :
    (s.raiseBody cause w info).run = .faulted := rfl

/-- Settles O10: the four bodies that overwrite `pc`, and `exec_pc` for the others. -/
theorem pcAfterEachInstruction : Obligations.PcAfterEachInstruction := by
  intro s t w i hs hw hd hstep hrun
  obtain ⟨u, hu, rfl⟩ := exec_of_step hs hw hd hstep
  rw [expose_run] at hrun
  cases i
  case jp nnn =>
    cases (exec_jp nnn s.inBody).symm.trans hu
    exact (congrArg BitVec.toNat (expose_pc _ _)).trans (zextAddr_toNat nnn)
  case jpV0Nnn nnn =>
    cases (exec_jpV0Nnn nnn s.inBody).symm.trans hu
    exact (congrArg BitVec.toNat (expose_pc _ _)).trans (zextAddr_add_zextByte_toNat nnn _)
  case call nnn =>
    rcases exec_call_cases nnn s.inBody with ⟨-, hexec⟩ | ⟨-, hexec⟩ <;> cases hexec.symm.trans hu
    · exact ⟨(congrArg BitVec.toNat (expose_pc _ _)).trans (zextAddr_toNat nnn), expose_stack _ _⟩
    · exact absurd (raiseBody_run _ _ _ _) hrun
  case ret =>
    rcases exec_ret_cases s.inBody with ⟨top, rest, hstack, hexec⟩ | ⟨-, hexec⟩ <;>
      cases hexec.symm.trans hu
    · rw [expose_pc, expose_stack]
      exact hstack
    · exact absurd (raiseBody_run _ _ _ _) hrun
  all_goals
    obtain ⟨hskip, hnext⟩ := exec_pc hu nofun nofun nofun nofun
    rw [inBody_skips] at hskip hnext
    rw [expose_pc]
    exact ⟨fun h => (hskip h).trans (add_two_add_two s.pc), hnext⟩

/-- A skip whose condition holds moves `pc` and, if it is a key skip, drains the buffer. -/
theorem exec_of_skips {i : Instr} {s : State} (h : s.skips i) :
    ∃ q, exec i s = .next { s with pc := s.pc + 2, keyq := q } := by
  cases i
  case seVxNn x nn =>
    rw [exec_seVxNn, skipIf_beq, if_pos (show s.reg x = nn from h)]
    exact ⟨s.keyq, rfl⟩
  case sneVxNn x nn =>
    rw [exec_sneVxNn, skipIf_bne, if_neg h]
    exact ⟨s.keyq, rfl⟩
  case seVxVy x y =>
    rw [exec_seVxVy, skipIf_beq, if_pos (show s.reg x = s.reg y from h)]
    exact ⟨s.keyq, rfl⟩
  case sneVxVy x y =>
    rw [exec_sneVxVy, skipIf_bne, if_neg h]
    exact ⟨s.keyq, rfl⟩
  case skpVx x => exact ⟨[], ((keySkipsDrainTheBuffer x s).1 h).1⟩
  case sknpVx x => exact ⟨[], ((keySkipsDrainTheBuffer x s).2 h).2⟩
  all_goals exact False.elim h

/-- Settles O11: the body of a skip reads no byte of RAM. -/
theorem skippedWordIsNeverRun : Obligations.SkippedWordIsNeverRun := by
  intro s w i hs hw hd hskip
  obtain ⟨q, hexec⟩ := exec_of_skips ((inBody_skips s i).2 hskip)
  obtain ⟨out, hout⟩ := expose_exists { s.inBody with pc := s.inBody.pc + 2, keyq := q } (some w)
  rw [step_of_fetches hs hw hd hexec, hout]
  exact ⟨_, rfl, add_two_add_two s.pc, hs.run, rfl, fun _ => rfl, fun _ => rfl, rfl, rfl, rfl, rfl⟩

/-! ### The key wait -/

theorem exec_ldVxK (x : Reg) (s : State) :
    exec (.ldVxK x) s = .next (s.setPhase (.waitKey x)) := rfl

theorem step_of_wait {s : State} {r : Reg} (hm : s.engineMoves) (hr : s.run = .running)
    (hc : s.cfg.valid) (hp : s.phase = .waitKey r) : step s = .next (s.afterMove.waitTurn r) := by
  rw [step_engine hm]
  simp [engineTurn, hr, hc, hp]

/-- The register of a completed wait holds the code, and the others stay (R208). -/
theorem completeWait_reg (s : State) (r : Reg) (c : KeyCode) (rest : List KeyCode) :
    ((s.completeWait r c rest).reg r).toNat = c.toNat ∧
      ∀ q, q ≠ r → (s.completeWait r c rest).reg q = s.reg q :=
  ⟨(congrArg BitVec.toNat (reg_setReg_same s r _)).trans (zextKey_toNat c),
    fun _ hq => reg_setReg_ne s _ hq⟩

/-- Settles O43: the body sets the phase, and the turn after it is a completion. -/
theorem keyWaitLoadsTheOldestPress : Obligations.KeyWaitLoadsTheOldestPress := by
  intro x s
  refine ⟨_, exec_ldVxK x s, rfl, fun c rest hm hr hc ha hq => ?_⟩
  have hturn : (s.setPhase (.waitKey x)).afterMove.waitTurn x =
      (s.setPhase (.waitKey x)).afterMove.completeWait x c rest := by
    simp [State.waitTurn, ha, hq]
  obtain ⟨hloaded, hothers⟩ := completeWait_reg (s.setPhase (.waitKey x)).afterMove x c rest
  refine ⟨_, step_of_wait hm hr hc rfl, ?_⟩
  rw [hturn]
  exact ⟨hloaded, hothers, rfl, rfl, rfl, fun _ => rfl⟩

/-- With a key buffered and the interrupt event pending, the turn is either step (log 7). -/
theorem waitTurn_both {s : State} {c : KeyCode} {rest : List KeyCode} (hq : s.keyq = c :: rest)
    (ha : s.abortPending = true) (r : Reg) :
    s.waitTurn r = s.nextFree.abortWait ∨ s.waitTurn r = s.nextFree.completeWait r c rest := by
  simp only [State.waitTurn, hq, ha]
  exact ite_eq_or_eq _ _ _

/-- What a turn in a wait leaves: the wait goes on, or it ends by the abort step or by the
completion step, each only when it is enabled. -/
theorem waitTurn_leaves {s : State} {r : Reg} (hr : s.run = .running) (hp : s.phase = .waitKey r) :
    (s.waitTurn r).pc = s.pc ∧
      (((s.waitTurn r).run = .running ∧ (s.waitTurn r).phase = .waitKey r ∧
          ∀ q, (s.waitTurn r).reg q = s.reg q) ∨
        (s.abortPending = true ∧ (s.waitTurn r).run = .aborted ∧ (s.waitTurn r).phase = .waitKey r ∧
          ∀ q, (s.waitTurn r).reg q = s.reg q) ∨
        (s.keyq ≠ [] ∧ (s.waitTurn r).run = .running ∧ (s.waitTurn r).phase = .fetch)) := by
  rcases waitTurn_cases s r with
    ⟨-, -, h⟩ | ⟨-, ha, h⟩ | ⟨c, rest, hq, ⟨-, h⟩ | ⟨ha, h | h⟩⟩ <;> rw [h] <;> refine ⟨rfl, ?_⟩
  · exact .inl ⟨hr, hp, fun _ => rfl⟩
  · exact .inr (.inl ⟨ha, rfl, hp, fun _ => rfl⟩)
  · exact .inr (.inr ⟨by simp [hq], hr, rfl⟩)
  · exact .inr (.inl ⟨ha, rfl, hp, fun _ => rfl⟩)
  · exact .inr (.inr ⟨by simp [hq], hr, rfl⟩)

/-- Settles O44: the three kinds of turn in a wait, and the cases of a step from a wait. -/
theorem onlyKeyInterruptOrResetEndAWait : Obligations.OnlyKeyInterruptOrResetEndAWait := by
  intro s r hr hp
  refine ⟨fun hm hc => ?turn, fun t hstep => ?step⟩
  case turn =>
    rw [step_of_wait hm hr hc hp]
    refine ⟨fun hq ha => ?abort, fun hq ha => ?idle, fun c rest hq ha => ?both⟩
    case abort => simp [State.waitTurn, hq, ha, abortWait_eq]
    case idle => simp [State.waitTurn, hq, ha]
    case both =>
      rcases waitTurn_both (s := s.afterMove) hq ha r with h | h <;> rw [h]
      · exact .inl rfl
      · obtain ⟨hloaded, hothers⟩ := completeWait_reg s.afterMove.nextFree r c rest
        exact .inr ⟨_, rfl, hloaded, hothers, rfl⟩
  case step =>
    cases stepCase_of_step hstep with
    | idle hm hr' => exact absurd hr hr'
    | abort hm hr' hp' => cases hp'.symm.trans hp
    | halt hm hr' hp' => cases hp'.symm.trans hp
    | fetchFault hs => cases hs.phase.symm.trans hp
    | decodeFault hs => cases hs.phase.symm.trans hp
    | body hs => cases hs.phase.symm.trans hp
    | @wait hm hr' r' hp' =>
      cases hp'.symm.trans hp
      obtain ⟨hpc, ⟨hrun, hphase, hregs⟩ | ⟨ha, hrun, hphase, hregs⟩ | ⟨hq, hrun, hphase⟩⟩ :=
        waitTurn_leaves (s := s.afterMove) hr hp
      · exact .inl ⟨hrun, hphase, hpc, hregs⟩
      · exact .inr (.inl ⟨hm, ha, hrun, hphase, hpc, hregs⟩)
      · exact .inr (.inr (.inl ⟨hm, hq, hrun, hphase, hpc⟩))
    | clock => exact .inl ⟨hr, hp, rfl, fun _ => rfl⟩
    | event => exact .inl ⟨hr, hp, rfl, fun _ => rfl⟩
    | reset hm => exact .inr (.inr (.inr ⟨_, _, hm⟩))
    | configure hr' => exact absurd hr hr'

/-! ### The run state -/

/-- Settles O13: by the cases of a step. -/
theorem runStateChangesOnlyByTheListedCauses :
    Obligations.RunStateChangesOnlyByTheListedCauses := by
  intro s t hstep hrun
  cases stepCase_of_step hstep with
  | idle => exact absurd rfl hrun
  | abort hm hr hp ha => exact .inr ⟨hr, hm, .inl ⟨rfl, ha⟩⟩
  | halt hm hr hp ha hh => exact .inr ⟨hr, hm, .inr (.inl ⟨rfl, hp, ha, .inl hh⟩)⟩
  | fetchFault hs hpc =>
    refine .inr ⟨hs.run, hs.moves, .inr (.inr ⟨expose_run _ _, hs.phase, hs.abort, hs.halt, ?_⟩)⟩
    exact ⟨_, expose_fault _ _, rfl⟩
  | decodeFault hs hw hd =>
    refine .inr ⟨hs.run, hs.moves, .inr (.inr ⟨expose_run _ _, hs.phase, hs.abort, hs.halt, ?_⟩)⟩
    exact ⟨_, expose_fault _ _, inBody_pc_sub s⟩
  | @body hs w hw i hd u hu =>
    refine .inr ⟨hs.run, hs.moves, .inr ?_⟩
    rw [expose_run] at hrun ⊢
    rcases exec_run hu with ⟨f, -, haddr, -, hf⟩ | ⟨-, hsame | ⟨hhalted, hi⟩⟩
    · refine .inr ⟨(congrArg State.run hf :), hs.phase, hs.abort, hs.halt, f, ?_, ?_⟩
      · exact (expose_fault _ _).trans (congrArg State.fault hf :)
      · exact haddr.trans (inBody_pc_sub s)
    · exact absurd hsame hrun
    · refine .inl ⟨hhalted, hs.phase, hs.abort, .inr ⟨w, hw, ?_⟩⟩
      rcases hi with ⟨nnn, rfl⟩ | rfl
      · exact .inl ⟨nnn, hd⟩
      · exact .inr hd
  | @wait hm hr r hp =>
    obtain ⟨-, ⟨hsame, -⟩ | ⟨ha, haborted, -⟩ | ⟨-, hsame, -⟩⟩ :=
      waitTurn_leaves (s := s.afterMove) hr hp
    · exact absurd (hsame.trans hr.symm) hrun
    · exact .inr ⟨hr, hm, .inl ⟨haborted, ha⟩⟩
    · exact absurd (hsame.trans hr.symm) hrun
  | clock => exact absurd rfl hrun
  | event => exact absurd rfl hrun
  | reset hm => exact .inl ⟨_, _, hm⟩
  | configure => exact absurd rfl hrun

end Sys2Proof.Machine
end

section
/-! Reset and load (70_reset_and_hazards.md R300 to R302; 60_exceptions.md R268): both kinds clear
the state over some RAM contents and load the ROM, so what they leave is said once, for any
contents. -/

namespace Sys2Proof.Machine

theorem font_length : Config.font.length = 0x050 := rfl

/-- Outside the font the reset contents of RAM are 0. -/
theorem ramDefault_above_font {a : Nat} (h : 0x050 ≤ a) : ramDefault a = 0 :=
  List.getD_eq_default Config.font 0 (by rw [font_length]; exact h)

/-- Settles O19: each value is a field of `State.reset`, whose RAM lists no cell. -/
theorem resetValuesOfTheSource : Obligations.ResetValuesOfTheSource :=
  ⟨rfl, rfl, rfl, fun px py => pixel_clear px py, fun _ => ramDefault_above_font⟩

/-- Settles O17: nothing is set, listed or stacked in the reset state. -/
theorem resetIsSoundAndWithinReach : Obligations.ResetIsSoundAndWithinReach := by
  refine ⟨⟨rfl, ?record, ?cause, fun _ => Nat.zero_le _, ⟨?delay, ?sound⟩, ?wait⟩, ⟨?pc, ?stack⟩⟩
  case record => decide
  case cause => exact nofun
  case delay => exact nofun
  case sound => exact nofun
  case wait => exact nofun
  case pc => decide
  case stack => exact nofun

section
variable (s : State) {m : Memory} {rom : List Byte}

/-- A ROM that fits: its bytes stand from 0x200 on, RAM is as it was elsewhere, and every other
field but those that no reset touches has its reset value (R300, R301). -/
theorem load_fitting (hm : Memory.wf m = true) (hlen : rom.length ≤ 3584) :
    ∃ t, (s.clearFor m).load rom = t ∧
      (∀ j, j < rom.length → t.readByte (0x200 + j) = rom.getD j 0) ∧
      (∀ a, (a < 0x200 ∨ 0x200 + rom.length ≤ a) → t.readByte a = Memory.read m a) ∧
      t = { State.reset with
            mem := t.mem, cfg := s.cfg, now := s.now, frames := s.frames, debugOut := s.debugOut,
            moves := s.moves, supply := s.supply, freeCtr := s.freeCtr } := by
  rcases load_cases (s.clearFor m) rom with ⟨-, hload⟩ | ⟨hover, -⟩
  · obtain ⟨hbytes, hothers⟩ := readByte_writeAll (s := s.clearFor m)
      (t := (s.clearFor m).load rom) hm (a := 0x200) (bs := rom) (by omega)
      (congrArg State.mem hload)
    refine ⟨_, rfl, hbytes, fun a ha => hothers a (by omega), ?_⟩
    rw [hload]
    rfl
  · omega

/-- A ROM that does not fit: `RomOversize`, with RAM below 0x200 as it was (R268; U13). -/
theorem load_oversize (m : Memory) (hlen : 3584 < rom.length) :
    ∃ m', (Memory.wf m = true → Memory.wf m' = true) ∧
      (Memory.wf m = true → ∀ a, a < 0x200 → Memory.read m' a = Memory.read m a) ∧
      (s.clearFor m).load rom =
        { s.clearFor m with
          mem := m', freeCtr := s.freeCtr + 1, run := .faulted
          fault := some { cause := .romOversize, addr := 0x0200, word := none,
                          info := BitVec.ofNat 16 (min rom.length 0xFFFF) } } := by
  rcases load_cases (s.clearFor m) rom with ⟨hfit, -⟩ | ⟨-, hload⟩
  · omega
  · exact ⟨_, fun hm => wf_writeUnspecified hm s.freeCtr,
      fun hm a ha => read_writeUnspecified_below hm s.freeCtr ha,
      hload.trans (raiseRomOversize_eq (s.clearFor m) rom.length _ rfl)⟩

/-- What a reload's RAM reads as before the load, above the font. -/
theorem read_keepFont_above (hm : Memory.wf m = true) {a : Nat} (h : 0x050 ≤ a) :
    Memory.read (Memory.keepFont m) a = 0 := by
  rw [read_keepFont hm, if_neg (Nat.not_lt_of_le h), ramDefault_above_font h]

theorem read_keepFont_below (hm : Memory.wf m = true) {a : Nat} (h : a < 0x050) :
    Memory.read (Memory.keepFont m) a = Memory.read m a := by
  rw [read_keepFont hm, if_pos h]

end

/-- Settles O20: the load over RAM that lists no cell. -/
theorem coldResetLoadsTheRom : Obligations.ColdResetLoadsTheRom := by
  intro s rom hlen hm
  obtain ⟨t, ht, hrom, hrest, hfields⟩ := load_fitting s.afterMove (m := []) rfl hlen
  refine ⟨t, (step_reset hm).trans (congrArg _ ht), hrom, fun a ha => ?font, fun a ha hout => ?zero,
    hfields⟩
  case font => exact hrest a (by omega)
  case zero => exact (hrest a hout).trans (ramDefault_above_font ha)

/-- Settles O21: the load over RAM of which the font bytes are kept. -/
theorem reloadLeavesTheFontBytes : Obligations.ReloadLeavesTheFontBytes := by
  intro s rom hram hlen hm
  obtain ⟨t, ht, hrom, hrest, hfields⟩ := load_fitting s.afterMove (wf_keepFont hram) hlen
  refine ⟨t, (step_reset hm).trans (congrArg _ ht), hrom, fun a ha => ?font, fun a ha hout => ?zero,
    hfields⟩
  case font => exact (hrest a (by omega)).trans (read_keepFont_below hram ha)
  case zero => exact (hrest a hout).trans (read_keepFont_above hram ha)

/-- Settles O22: with the font intact the kept RAM lists no cell, as a cold reset's does. -/
theorem reloadIsColdResetWithIntactFont : Obligations.ReloadIsColdResetWithIntactFont := by
  intro s rom hram hfont
  have hkept : Memory.keepFont s.mem = [] := by
    refine eq_of_read_eq (lo := 0) (wf_keepFont hram) rfl fun a => ?_
    rw [read_keepFont hram]
    split
    · exact hfont a ‹_›
    · rfl
  rw [State.reload, State.coldReset, hkept]

/-- The turn of a terminal engine that has the move leaves its state (log 5). -/
theorem step_of_terminal {s : State} (hr : s.run ≠ .running) (hm : s.engineMoves) :
    step s = .next s.afterMove :=
  (step_engine hm).trans (engineTurn_of_not_running hr)

/-- Settles O23: the oversize load over either kind's RAM contents. -/
theorem oversizeRomFaultsAndRunsNoCycle : Obligations.OversizeRomFaultsAndRunsNoCycle := by
  intro s kind rom hlen hm
  cases kind with
  | cold =>
    obtain ⟨m', -, hbelow, ht⟩ := load_oversize s.afterMove [] hlen
    exact ⟨_, (step_reset hm).trans (congrArg _ ht), rfl, rfl, fun _ => hbelow rfl, nofun,
      step_of_terminal nofun⟩
  | reload =>
    obtain ⟨m', -, hbelow, ht⟩ := load_oversize s.afterMove (Memory.keepFont s.mem) hlen
    refine ⟨_, (step_reset hm).trans (congrArg _ ht), rfl, rfl, nofun,
      fun _ hram => ⟨fun a ha => ?font, fun a ha hlow => ?zero⟩, step_of_terminal nofun⟩
    case font => exact (hbelow (wf_keepFont hram) a (by omega)).trans (read_keepFont_below hram ha)
    case zero => exact (hbelow (wf_keepFont hram) a hlow).trans (read_keepFont_above hram ha)

end Sys2Proof.Machine
end

section
/-! The two invariants (10_state.md R28, R31, R37; 46_timers.md R221): what each part of a step
keeps of them, and the step by its cases. -/

namespace Sys2Proof.Machine

/-! ### What a body keeps -/

section
variable {i : Instr} {s t : State}

theorem exec_ramCanonical (h : exec i s = .next t) (hram : s.ramCanonical) : t.ramCanonical := by
  cases i
  case ldBVx x =>
    rcases exec_ldBVx_cases x s with ⟨hfit, hs⟩ | ⟨-, hs⟩ <;> cases hs.symm.trans h
    · exact wf_writeAll hram _ _ hfit
    · exact hram
  case ldMemVx x =>
    rcases exec_ldMemVx_cases x s with ⟨hfit, hs⟩ | ⟨-, hs⟩ <;> cases hs.symm.trans h
    · exact wf_writeAll hram _ _ (by rw [regsUpTo_length]; exact hfit)
    · exact hram
  all_goals rwa [State.ramCanonical, exec_mem h nofun nofun]

theorem exec_stack_le (h : exec i s = .next t) (hstack : s.stack.length ≤ s.cfg.stackCapacity) :
    t.stack.length ≤ t.cfg.stackCapacity := by
  rw [exec_cfg h]
  cases i
  case call nnn =>
    rcases exec_call_cases nnn s with ⟨hroom, hs⟩ | ⟨-, hs⟩ <;> cases hs.symm.trans h
    · exact Nat.lt_of_le_of_ne hstack hroom
    · exact hstack
  case ret =>
    rcases exec_ret_cases s with ⟨top, rest, hpop, hs⟩ | ⟨-, hs⟩ <;> cases hs.symm.trans h
    · rw [hpop] at hstack
      exact Nat.le_of_succ_le hstack
    · exact hstack
  all_goals rwa [exec_stack h nofun nofun]

/-- A read clears the reference or keeps it, and a timer is set to the time now (46_timers.md R222,
R224). -/
theorem exec_timersNotAhead (h : exec i s = .next t) (htimers : s.timersNotAhead) :
    t.timersNotAhead := by
  obtain ⟨hdt, hst⟩ := htimers
  have hnow : t.now = s.now := (congrArg State.now (exec_unwritten h) :)
  cases i
  case ldVxDt x =>
    cases (exec_ldVxDt x s).symm.trans h
    refine ⟨fun r hr => ?_, hst⟩
    rcases timerReadMut_leaves s.cfg.timeScale s.dt s.now with hleft | hleft <;>
      rw [setReg_dt, setDt_dt, hleft] at hr
    · cases hr
    · exact hdt r hr
  case ldDtVx x =>
    cases h
    exact ⟨fun r hr => by cases hr; exact Nat.le_refl _, hst⟩
  case ldStVx x =>
    cases h
    exact ⟨hdt, fun r hr => by cases hr; exact Nat.le_refl _⟩
  all_goals
    rw [State.timersNotAhead, exec_dt h nofun nofun, exec_st h nofun, hnow]
    exact ⟨hdt, hst⟩

theorem bodyFault_ne_registerIndex {f : FaultRecord} (h : i.bodyFault = some f.cause) :
    f.cause ≠ .registerIndex := by
  intro hf
  rw [hf] at h
  cases i <;> cases h

/-- A body that starts in phase FETCH and enters a wait leaves the run state. -/
theorem exec_waitRunsOrAborted (h : exec i s = .next t) (hr : s.run = .running)
    (hp : s.phase = .fetch) : t.waitRunsOrAborted := by
  intro r hwait
  cases i
  case ldVxK x =>
    cases (exec_ldVxK x s).symm.trans h
    exact .inl hr
  all_goals
    rw [exec_phase h nofun, hp] at hwait
    cases hwait

/-- A body leaves a record exactly where it takes its fault, with a cause that something raises. -/
theorem exec_record (h : exec i s = .next t) (hr : s.run = .running) (hnone : s.fault = none) :
    t.recordIffFaulted ∧ t.noRegisterIndex := by
  rcases exec_run h with ⟨f, hcause, -, -, hf⟩ | ⟨hsame, hrun⟩
  · cases hf
    exact ⟨iff_of_true rfl rfl, fun g hg => by cases hg; exact bodyFault_ne_registerIndex hcause⟩
  · rw [hnone] at hsame
    have hnot : t.run ≠ .faulted := by rcases hrun with hrun | ⟨hrun, -⟩ <;> simp [hrun, hr]
    exact ⟨iff_of_false (by simp [hsame]) hnot, fun g hg => by cases hsame.symm.trans hg⟩

/-! ### What keeps the invariant of the machine -/

theorem State.Inv.fault_none (hinv : s.Inv) (hr : s.run = .running) : s.fault = none := by
  cases hf : s.fault with
  | none => rfl
  | some f => cases hr.symm.trans (hinv.record.1 (by rw [hf]; rfl))

/-- The fields that the invariant does not speak of. -/
theorem State.Inv.of_frame (hinv : s.Inv)
    (ht : t = { s with
      v := t.v, pc := t.pc, i := t.i, disp := t.disp, keyq := t.keyq, abortPending := t.abortPending
      haltPending := t.haltPending, frames := t.frames, debugOut := t.debugOut, moves := t.moves
      supply := t.supply, freeCtr := t.freeCtr }) : t.Inv := by
  rw [ht]
  exact ⟨hinv.ram, hinv.record, hinv.cause, hinv.stack, hinv.timers, hinv.wait⟩

theorem State.Inv.afterMove (hinv : s.Inv) : s.afterMove.Inv := hinv.of_frame rfl

theorem State.Inv.expose (hinv : s.Inv) (w : Option Word) : (s.expose w).Inv := by
  rw [expose_eq]
  exact hinv.of_frame rfl

theorem State.Inv.raise (hinv : s.Inv) (hp : s.phase = .fetch) {f : FaultRecord}
    (hcause : f.cause ≠ .registerIndex) : (s.raise f).Inv where
  ram := hinv.ram
  record := iff_of_true rfl rfl
  cause g hg := by cases hg; exact hcause
  stack := nofun
  timers := hinv.timers
  wait r hwait := by cases hp.symm.trans hwait

/-- A running engine stops without a fault: it is aborted, or it halts outside a wait. -/
theorem State.Inv.setRun (hinv : s.Inv) (hr : s.run = .running) {r : RunState}
    (hstop : r = .aborted ∨ r = .halted ∧ s.phase = .fetch) : (s.setRun r).Inv where
  ram := hinv.ram
  record := by
    refine iff_of_false ?_ ?_
    · rw [setRun_fault, hinv.fault_none hr]
      exact nofun
    · rcases hstop with rfl | ⟨rfl, -⟩ <;> exact nofun
  cause := hinv.cause
  stack := by rcases hstop with rfl | ⟨rfl, -⟩ <;> exact nofun
  timers := hinv.timers
  wait q hwait := by
    rcases hstop with rfl | ⟨-, hp⟩
    · exact .inr rfl
    · cases hp.symm.trans hwait

theorem State.Inv.completeWait (hinv : s.Inv) (r : Reg) (c : KeyCode) (rest : List KeyCode) :
    (s.completeWait r c rest).Inv :=
  ⟨hinv.ram, hinv.record, hinv.cause, hinv.stack, hinv.timers, nofun⟩

theorem State.Inv.waitTurn (hinv : s.Inv) (hr : s.run = .running) (r : Reg) :
    (s.waitTurn r).Inv := by
  have hnext : s.nextFree.Inv := hinv.of_frame rfl
  rcases waitTurn_cases s r with
    ⟨-, -, h⟩ | ⟨-, -, h⟩ | ⟨c, rest, -, ⟨-, h⟩ | ⟨-, h | h⟩⟩ <;> rw [h]
  · exact hinv
  · exact hinv.setRun hr (.inl rfl)
  · exact hinv.completeWait r c rest
  · exact hnext.setRun hr (.inl rfl)
  · exact hnext.completeWait r c rest

/-- Time that passes leaves no timer ahead of the clock (46_timers.md R221). -/
theorem State.Inv.clock (hinv : s.Inv) (ms : Nat) : State.Inv { s with now := s.now + ms } where
  ram := hinv.ram
  record := hinv.record
  cause := hinv.cause
  stack := hinv.stack
  timers := ⟨fun r hr => Nat.le_add_right_of_le (hinv.timers.1 r hr),
    fun r hr => Nat.le_add_right_of_le (hinv.timers.2 r hr)⟩
  wait := hinv.wait

theorem State.Inv.configure (hinv : s.Inv) (hr : s.run ≠ .running) (c : Configuration) :
    State.Inv { s with cfg := c } :=
  ⟨hinv.ram, hinv.record, hinv.cause, fun hr' => absurd hr' hr, hinv.timers, hinv.wait⟩

theorem inv_load (s : State) {m : Memory} (hm : Memory.wf m = true) (rom : List Byte) :
    ((s.clearFor m).load rom).Inv := by
  rcases load_cases (s.clearFor m) rom with ⟨hfit, hload⟩ | ⟨hover, -⟩
  · rw [hload]
    have hin : 0x200 + rom.length ≤ Config.ramSize := by
      rw [Config.ramSize]
      omega
    exact ⟨wf_writeAll hm 0x200 rom hin, iff_of_false nofun nofun, nofun, fun _ => Nat.zero_le _,
      ⟨nofun, nofun⟩, nofun⟩
  · obtain ⟨m', hwf, -, hload⟩ := load_oversize s m hover
    rw [hload]
    exact ⟨hwf hm, iff_of_true rfl rfl, fun g hg => by cases hg; exact nofun, nofun,
      ⟨nofun, nofun⟩, nofun⟩

theorem State.Inv.resetWith (hinv : s.Inv) (kind : ResetKind) (rom : List Byte) :
    (s.resetWith kind rom).Inv := by
  cases kind with
  | cold => exact inv_load s rfl rom
  | reload => exact inv_load s (wf_keepFont hinv.ram) rom

theorem State.Inv.exec (hinv : s.Inv) (hr : s.run = .running) (hp : s.phase = .fetch)
    (h : Machine.exec i s = .next t) : t.Inv := by
  obtain ⟨hrecord, hcause⟩ := exec_record h hr (hinv.fault_none hr)
  exact ⟨exec_ramCanonical h hinv.ram, hrecord, hcause, fun _ => exec_stack_le h (hinv.stack hr),
    exec_timersNotAhead h hinv.timers, exec_waitRunsOrAborted h hr hp⟩

/-! ### What keeps `pc` and the return addresses within reach -/

theorem toNat_add_two {a : Word} {n : Nat} (h : a.toNat ≤ n) (hn : n + 2 < 65536) :
    (a + 2).toNat ≤ n + 2 := by
  rw [BitVec.toNat_add]
  have htwo : (2 : Word).toNat = 2 := rfl
  omega

/-- A body starts at most 2 past the last word of RAM, and leaves `pc` there, one skip further, at a
jump's target or at a return address (R28). -/
theorem exec_pcBounded (h : exec i s = .next t) (hpc : s.pc.toNat ≤ 0x1000)
    (hstack : ∀ a ∈ s.stack, a.toNat ≤ 0x1000) : t.PcBounded := by
  cases i
  case jp nnn =>
    cases (exec_jp nnn s).symm.trans h
    have := nnn.isLt
    exact ⟨by rw [setPc_pc, zextAddr_toNat]; omega, hstack⟩
  case jpV0Nnn nnn =>
    cases (exec_jpV0Nnn nnn s).symm.trans h
    have := nnn.isLt
    have := (s.reg 0).isLt
    exact ⟨by rw [setPc_pc, zextAddr_add_zextByte_toNat]; omega, hstack⟩
  case call nnn =>
    rcases exec_call_cases nnn s with ⟨-, hs⟩ | ⟨-, hs⟩ <;> cases hs.symm.trans h
    · have := nnn.isLt
      exact ⟨by rw [zextAddr_toNat]; omega, List.forall_mem_cons.2 ⟨hpc, hstack⟩⟩
    · exact ⟨Nat.le_trans hpc (by decide), hstack⟩
  case ret =>
    rcases exec_ret_cases s with ⟨top, rest, hpop, hs⟩ | ⟨-, hs⟩ <;> cases hs.symm.trans h
    · rw [hpop, List.forall_mem_cons] at hstack
      exact ⟨Nat.le_trans hstack.1 (by decide), hstack.2⟩
    · exact ⟨Nat.le_trans hpc (by decide), hstack⟩
  all_goals
    refine ⟨?_, by rwa [exec_stack h nofun nofun]⟩
    rcases exec_pc_or_skip h nofun nofun nofun nofun with hpc' | hpc' <;> rw [hpc']
    · exact Nat.le_trans (toNat_add_two hpc (by decide)) (by decide)
    · exact Nat.le_trans hpc (by decide)

/-- The bound speaks of `pc` and the stack only. -/
theorem State.PcBounded.of_eq (hs : s.PcBounded) (hpc : t.pc = s.pc) (hstack : t.stack = s.stack) :
    t.PcBounded :=
  ⟨hpc ▸ hs.pc, hstack ▸ hs.stack⟩

theorem State.PcBounded.expose (hs : s.PcBounded) (w : Option Word) : (s.expose w).PcBounded :=
  hs.of_eq (expose_pc s w) (expose_stack s w)

theorem State.PcBounded.raise (hs : s.PcBounded) (f : FaultRecord) : (s.raise f).PcBounded :=
  hs.of_eq rfl rfl

/-- A wait leaves `pc` and the stack. -/
theorem waitTurn_pc_stack (s : State) (r : Reg) :
    (s.waitTurn r).pc = s.pc ∧ (s.waitTurn r).stack = s.stack := by
  rcases waitTurn_cases s r with
    ⟨-, -, h⟩ | ⟨-, -, h⟩ | ⟨c, rest, -, ⟨-, h⟩ | ⟨-, h | h⟩⟩ <;> rw [h] <;> exact ⟨rfl, rfl⟩

/-- A load leaves an empty stack, and `pc` at 0x200 or, when the ROM does not fit, where it was. -/
theorem pcBounded_load (hpc : s.pc.toNat ≤ 0x10FE) (m : Memory) (rom : List Byte) :
    ((s.clearFor m).load rom).PcBounded := by
  rcases load_cases (s.clearFor m) rom with ⟨-, hload⟩ | ⟨hover, -⟩
  · rw [hload]
    exact ⟨show (0x0200 : Word).toNat ≤ 0x10FE by decide, nofun⟩
  · obtain ⟨m', -, -, hload⟩ := load_oversize s m hover
    rw [hload]
    exact ⟨hpc, nofun⟩

end

/-! ### The step -/

/-- Settles O15: by the cases of a step. -/
theorem stepKeepsMachineSound : Obligations.StepKeepsMachineSound := by
  intro s t hinv hstep
  have hmoved : s.afterMove.Inv := hinv.afterMove
  have hbody : s.inBody.Inv := hinv.of_frame rfl
  cases stepCase_of_step hstep with
  | idle => exact hmoved
  | abort hm hr => exact hmoved.setRun hr (.inl rfl)
  | halt hm hr hp => exact hmoved.setRun hr (.inr ⟨rfl, hp⟩)
  | fetchFault hs => exact State.Inv.expose (hmoved.raise hs.phase (by exact nofun)) none
  | decodeFault hs => exact State.Inv.expose (hbody.raise hs.phase (by exact nofun)) _
  | body hs hw hd hu => exact (hbody.exec hs.run hs.phase hu).expose _
  | wait hm hr => exact hmoved.waitTurn hr _
  | clock ms => exact hmoved.clock ms
  | event => exact hmoved.of_frame rfl
  | reset hm => exact hmoved.resetWith _ _
  | configure hr c => exact hmoved.configure hr c

/-- Settles O16: by the cases of a step. -/
theorem stepKeepsPcWithinReach : Obligations.StepKeepsPcWithinReach := by
  intro s t hs hstep
  have hmoved : s.afterMove.PcBounded := hs.of_eq rfl rfl
  cases stepCase_of_step hstep with
  | fetchFault => exact State.PcBounded.expose (hmoved.raise _) none
  | decodeFault _ hw =>
    have hpc : s.inBody.pc.toNat ≤ 0x1000 := toNat_add_two hw.1 (by decide)
    have hbody : s.inBody.PcBounded := ⟨Nat.le_trans hpc (by decide), hs.stack⟩
    exact State.PcBounded.expose (hbody.raise _) _
  | body _ hw _ hu =>
    exact (exec_pcBounded hu (toNat_add_two hw.1 (by decide)) hs.stack).expose _
  | @wait _ _ r _ =>
    obtain ⟨hpc, hstack⟩ := waitTurn_pc_stack s.afterMove r
    exact hs.of_eq hpc hstack
  | @reset kind rom _ => cases kind <;> exact pcBounded_load (s := s.afterMove) hs.pc _ _
  | idle | abort | halt | clock | event | configure => exact hs.of_eq rfl rfl

end Sys2Proof.Machine
end

section
/-! Runs without a reset: what the steps between cycles keep, how a run splits at an instruction,
and that a balanced sequence of instructions leaves the stack (40_cycle_and_control_flow.md R122,
R125). -/

namespace Sys2Proof.Machine

/-- A step that is no cycle and no reset leaves `pc` and the stack, and starts no engine. -/
theorem step_between_cycles {s t : State} (hs : ¬ s.CycleReady) (hreset : s.noReset)
    (hstep : step s = .next t) :
    t.pc = s.pc ∧ t.stack = s.stack ∧ (t.run = .running → s.run = .running) := by
  cases stepCase_of_step hstep with
  | fetchFault hs' => exact absurd hs' hs
  | decodeFault hs' => exact absurd hs' hs
  | body hs' => exact absurd hs' hs
  | @wait _ hr r _ =>
    obtain ⟨hpc, hstack⟩ := waitTurn_pc_stack s.afterMove r
    exact ⟨hpc, hstack, fun _ => hr⟩
  | abort _ hr | halt _ hr => exact ⟨rfl, rfl, fun _ => hr⟩
  | reset hm => exact absurd hm (hreset _ _)
  | idle | clock | event | configure => exact ⟨rfl, rfl, id⟩

/-- Only a reset starts an engine that has stopped. -/
theorem Executes.running_of_running {is : List Instr} {s t : State} (h : Executes is s t)
    (ht : t.run = .running) : s.run = .running := by
  induction h with
  | done => exact ht
  | cycle _ _ hs => exact hs.run
  | other hs hreset hstep _ ih => exact (step_between_cycles hs hreset hstep).2.2 (ih ht)

/-- A run that executes nothing leaves `pc` and the stack. -/
theorem Executes.of_nil {s t : State} (h : Executes [] s t) : t.pc = s.pc ∧ t.stack = s.stack := by
  generalize hnil : ([] : List Instr) = is at h
  induction h with
  | done => exact ⟨rfl, rfl⟩
  | cycle => cases hnil
  | other hs hreset hstep _ ih =>
    obtain ⟨hpc, hstack, -⟩ := step_between_cycles hs hreset hstep
    exact ⟨(ih hnil).1.trans hpc, (ih hnil).2.trans hstack⟩

/-- A run that executes `i` first gets to the cycle that runs its body with `pc` and the stack it
started with, and goes on from what the body leaves. -/
theorem Executes.of_cons {i : Instr} {is : List Instr} {s t : State} (h : Executes (i :: is) s t) :
    ∃ (r u : State) (w : Option Word), r.pc = s.pc ∧ r.stack = s.stack ∧ exec i r.inBody = .next u ∧
      Executes is (u.expose w) t := by
  generalize hcons : i :: is = js at h
  induction h with
  | done => cases hcons
  | @cycle s _ _ _ w _ hs hw hd hstep hrest =>
    cases hcons
    obtain ⟨u, hu, rfl⟩ := exec_of_step hs hw hd hstep
    exact ⟨s, u, some w, rfl, rfl, hu, hrest⟩
  | other hs hreset hstep _ ih =>
    obtain ⟨hpc, hstack, -⟩ := step_between_cycles hs hreset hstep
    obtain ⟨r, u, w, hrpc, hrstack, hu, hrest⟩ := ih hcons
    exact ⟨r, u, w, hrpc.trans hpc, hrstack.trans hstack, hu, hrest⟩

/-- A run splits where its instructions do. -/
theorem Executes.of_append {is js : List Instr} {s t : State} (h : Executes (is ++ js) s t) :
    ∃ u, Executes is s u ∧ Executes js u t := by
  generalize hcat : is ++ js = ks at h
  induction h generalizing is with
  | done s =>
    obtain ⟨rfl, rfl⟩ := List.append_eq_nil_iff.1 hcat
    exact ⟨s, .done s, .done s⟩
  | @cycle s _ _ _ w i hs hw hd hstep hrest ih =>
    cases is with
    | nil =>
      cases hcat
      exact ⟨s, .done s, .cycle w i hs hw hd hstep hrest⟩
    | cons k is =>
      cases hcat
      obtain ⟨u, hu, hrest'⟩ := ih rfl
      exact ⟨u, .cycle w i hs hw hd hstep hu, hrest'⟩
  | other hs hreset hstep _ ih =>
    obtain ⟨u, hu, hrest⟩ := ih hcat
    exact ⟨u, .other hs hreset hstep hu, hrest⟩

/-- A call, a body that leaves the stack, and the return: the engine goes on from the address after
the call, with the stack it had. -/
theorem Executes.of_call {nnn : Addr12} {body is : List Instr} {s t : State}
    (hbody : ∀ {s t : State}, Executes body s t → t.run = .running → t.stack = s.stack)
    (h : Executes (.call nnn :: (body ++ .ret :: is)) s t) (ht : t.run = .running) :
    ∃ u : State, u.pc = s.pc + 2 ∧ u.stack = s.stack ∧ Executes is u t := by
  obtain ⟨r, u, w, hpc, hstack, hcall, hrest⟩ := h.of_cons
  obtain ⟨q, hq, hret⟩ := hrest.of_append
  obtain ⟨r', u', w', -, hstack', hpop, hafter⟩ := hret.of_cons
  have hr' : r'.stack = u.stack :=
    hstack'.trans ((hbody hq (hret.running_of_running ht)).trans (expose_stack u w))
  rcases exec_call_cases nnn r.inBody with ⟨-, hexec⟩ | ⟨-, hexec⟩ <;> cases hexec.symm.trans hcall
  · rcases exec_ret_cases r'.inBody with ⟨top, rest, htop, hexec'⟩ | ⟨hempty, -⟩
    · cases hexec'.symm.trans hpop
      cases htop.symm.trans hr'
      refine ⟨_, ?_, ?_, hafter⟩
      · rw [expose_pc, ← hpc]
        rfl
      · rw [expose_stack, ← hstack]
        rfl
    · cases hempty.symm.trans hr'
  · cases (expose_run _ _).symm.trans (hrest.running_of_running ht)

/-- Every return of a balanced sequence pops what its own call pushed. -/
theorem Balanced.stack_eq {is : List Instr} (h : Balanced is) {s t : State} (hrun : Executes is s t)
    (ht : t.run = .running) : t.stack = s.stack := by
  induction h generalizing s t with
  | nil => exact hrun.of_nil.2
  | plain i is hcall hret _ ih =>
    obtain ⟨r, u, w, -, hstack, hexec, hrest⟩ := hrun.of_cons
    calc t.stack = (u.expose w).stack := ih hrest ht
      _ = u.stack := expose_stack u w
      _ = r.stack := (exec_stack hexec hcall hret :)
      _ = s.stack := hstack
  | call nnn body is _ _ ihbody ih =>
    obtain ⟨u, -, hstack, hrest⟩ := hrun.of_call ihbody ht
    exact (ih hrest ht).trans hstack

/-- Settles O36: the body is balanced, so it leaves the stack, and the run ends after the return. -/
theorem nestedCallsReturnToTheirCaller : Obligations.NestedCallsReturnToTheirCaller := by
  intro nnn body s t hbody hrun ht
  obtain ⟨u, hpc, hstack, hrest⟩ := hrun.of_call hbody.stack_eq ht
  obtain ⟨hpc', hstack'⟩ := hrest.of_nil
  exact ⟨hpc'.trans hpc, hstack'.trans hstack⟩

end Sys2Proof.Machine
end

section
/-! `DEBUG_MODE` and `CYCLE_DELAY` reach nothing but the debug port's own record (10_state.md R56;
92_eei_decisions.md D29, D30): every operation of the machine commutes with overwriting the
three. -/

namespace Sys2Proof.Machine

/-- `s` under another `CYCLE_DELAY` and `DEBUG_MODE`, with another record of the debug port. -/
def State.withDebug (s : State) (delay : Nat) (mode : Bool) (out : List DebugSnapshot) : State :=
  { s with cfg := { s.cfg with cycleDelay := delay, debugMode := mode }, debugOut := out }

section
variable (s : State) (delay : Nat) (mode : Bool) (out : List DebugSnapshot)

theorem skipIf_withDebug (c : Bool) :
    (s.withDebug delay mode out).skipIf c = (s.skipIf c).withDebug delay mode out := by
  cases c <;> rfl

theorem loadRegs_withDebug (j : Nat) (bs : List Byte) :
    (s.withDebug delay mode out).loadRegs j bs = (s.loadRegs j bs).withDebug delay mode out := by
  induction bs generalizing s j with
  | nil => rfl
  | cons b bs ih => exact ih (s.setReg (Fin.ofNat 16 j) b) (j + 1)

@[simp] theorem withDebug_stack : (s.withDebug delay mode out).stack = s.stack := rfl

@[simp] theorem withDebug_keyq : (s.withDebug delay mode out).keyq = s.keyq := rfl

@[simp] theorem withDebug_abortPending :
    (s.withDebug delay mode out).abortPending = s.abortPending := rfl

@[simp] theorem withDebug_haltPending :
    (s.withDebug delay mode out).haltPending = s.haltPending := rfl

@[simp] theorem withDebug_freeCtr : (s.withDebug delay mode out).freeCtr = s.freeCtr := rfl

@[simp] theorem withDebug_run : (s.withDebug delay mode out).run = s.run := rfl

@[simp] theorem withDebug_phase : (s.withDebug delay mode out).phase = s.phase := rfl

/-- The two settings are no part of a configuration's validity (R304). -/
theorem withDebug_valid : (s.withDebug delay mode out).cfg.valid ↔ s.cfg.valid := Iff.rfl

theorem waitTurn_withDebug (r : Reg) :
    (s.withDebug delay mode out).waitTurn r = (s.waitTurn r).withDebug delay mode out := by
  unfold State.waitTurn
  simp only [withDebug_keyq, withDebug_abortPending, withDebug_freeCtr]
  cases s.keyq with
  | nil => cases s.abortPending <;> rfl
  | cons c rest =>
    cases s.abortPending with
    | false => rfl
    | true =>
      exact (apply_ite (State.withDebug · delay mode out) (Config.abortFirst s.freeCtr = true)
        s.nextFree.abortWait (s.nextFree.completeWait r c rest)).symm

theorem whileRunning_withDebug (t : State) :
    (s.withDebug delay mode out).whileRunning (t.withDebug delay mode out) =
      (s.whileRunning t).withDebug delay mode out :=
  (apply_ite (State.withDebug · delay mode out) (s.run = .running) t s).symm

theorem raiseRomOversize_withDebug (len : Nat) :
    (s.withDebug delay mode out).raiseRomOversize len =
      (s.raiseRomOversize len).withDebug delay mode out := by
  obtain ⟨m, hm⟩ :
    ∃ m, Memory.writeAll s.mem Config.programBase (unspecifiedBytes s.freeCtr) = m := ⟨_, rfl⟩
  rw [raiseRomOversize_eq s len m hm, raiseRomOversize_eq (s.withDebug delay mode out) len m hm]
  rfl

theorem load_withDebug (rom : List Byte) :
    (s.withDebug delay mode out).load rom = (s.load rom).withDebug delay mode out := by
  by_cases hfit : rom.length ≤ Config.romMax
  · simp only [State.load, if_pos hfit]
    rfl
  · simp only [State.load, if_neg hfit, raiseRomOversize_withDebug]

theorem resetWith_withDebug (kind : ResetKind) (rom : List Byte) :
    (s.withDebug delay mode out).resetWith kind rom =
      (s.resetWith kind rom).withDebug delay mode out := by
  cases kind with
  | cold => exact load_withDebug (s.clearFor []) delay mode out rom
  | reload => exact load_withDebug (s.clearFor (Memory.keepFont s.mem)) delay mode out rom

/-! ### The meanings, the cycle and the turn under other settings -/

/-- An operation with two outcomes commutes with `f` when each outcome does, and the outcome is
decided alike. -/
theorem mapNext_of_outcomes {f : State → State} {r r' : Result} {a b : State} {P Q : Prop}
    (hPQ : P → ¬ Q) (h : P ∧ r = .next a ∨ Q ∧ r = .next b)
    (h' : P ∧ r' = .next (f a) ∨ Q ∧ r' = .next (f b)) : r' = mapNext f r := by
  rcases h with ⟨hP, rfl⟩ | ⟨hQ, rfl⟩ <;> rcases h' with ⟨hP', h'⟩ | ⟨hQ', h'⟩
  · exact h'
  · exact absurd hQ' (hPQ hP)
  · exact absurd hQ (hPQ hP')
  · exact h'

theorem exec_withDebug (i : Instr) :
    exec i (s.withDebug delay mode out) =
      mapNext (State.withDebug · delay mode out) (exec i s) := by
  cases i
  case ret =>
    simp only [exec, execRet, State.pop, withDebug_stack]
    cases s.stack <;> rfl
  case call nnn =>
    exact mapNext_of_outcomes id (exec_call_cases nnn s)
      (exec_call_cases nnn (s.withDebug delay mode out))
  case drwVxVyN x y n =>
    exact mapNext_of_outcomes (by omega) ((exec_drw_cases x y n s).imp_right and_assoc.2)
      ((exec_drw_cases x y n (s.withDebug delay mode out)).imp_right and_assoc.2)
  case ldBVx x =>
    exact mapNext_of_outcomes Nat.not_lt_of_le (exec_ldBVx_cases x s)
      (exec_ldBVx_cases x (s.withDebug delay mode out))
  case ldMemVx x =>
    exact mapNext_of_outcomes Nat.not_lt_of_le (exec_ldMemVx_cases x s)
      (exec_ldMemVx_cases x (s.withDebug delay mode out))
  case ldVxMem x =>
    have h := exec_ldVxMem_cases x (s.withDebug delay mode out)
    rw [loadRegs_withDebug] at h
    exact mapNext_of_outcomes Nat.not_lt_of_le (exec_ldVxMem_cases x s) h
  case seVxNn | sneVxNn | seVxVy | sneVxVy =>
    exact congrArg Host.Outcome.next (skipIf_withDebug s delay mode out _)
  case skpVx | sknpVx =>
    exact congrArg Host.Outcome.next (skipIf_withDebug s.drainKeys delay mode out _)
  all_goals rfl

/-- What the debug port sees stands in its own record. -/
theorem expose_withDebug (w : Option Word) :
    ∃ out', (s.withDebug delay mode out).expose w = (s.expose w).withDebug delay mode out' := by
  rw [expose_eq, expose_eq s w]
  exact ⟨_, rfl⟩

theorem mapNext_expose_withDebug (w : Option Word) (r : Result) :
    ∃ out', mapNext (State.expose · w) (mapNext (State.withDebug · delay mode out) r) =
      mapNext (State.withDebug · delay mode out') (mapNext (State.expose · w) r) := by
  cases r with
  | next t =>
    obtain ⟨out', h⟩ := expose_withDebug t delay mode out w
    exact ⟨out', congrArg Host.Outcome.next h⟩
  | fault _ | refused _ => exact ⟨out, rfl⟩

theorem dispatch_withDebug (w : Word) :
    dispatch w (s.withDebug delay mode out) =
      mapNext (State.withDebug · delay mode out) (dispatch w s) := by
  unfold dispatch
  cases decodeWord w with
  | error e => rfl
  | ok i => exact exec_withDebug s delay mode out i

theorem cycle_withDebug :
    ∃ out', cycle (s.withDebug delay mode out) =
      mapNext (State.withDebug · delay mode out') (cycle s) := by
  have hread : (s.withDebug delay mode out).readWord (s.withDebug delay mode out).pc.toNat =
      s.readWord s.pc.toNat := rfl
  unfold cycle
  rw [hread]
  cases s.readWord s.pc.toNat with
  | error e =>
    obtain ⟨out', h⟩ := expose_withDebug (s.raiseFetch e) delay mode out none
    exact ⟨out', congrArg Host.Outcome.next h⟩
  | ok w =>
    have hdispatch : dispatch w ((s.withDebug delay mode out).setPc (s.pc + 2)) =
        mapNext (State.withDebug · delay mode out) (dispatch w (s.setPc (s.pc + 2))) :=
      dispatch_withDebug (s.setPc (s.pc + 2)) delay mode out w
    obtain ⟨out', h⟩ :=
      mapNext_expose_withDebug delay mode out (some w) (dispatch w (s.setPc (s.pc + 2)))
    exact ⟨out', (congrArg (mapNext (State.expose · (some w))) hdispatch).trans h⟩

theorem fetchTurn_withDebug :
    ∃ out', fetchTurn (s.withDebug delay mode out) =
      mapNext (State.withDebug · delay mode out') (fetchTurn s) := by
  unfold fetchTurn
  rw [withDebug_abortPending, withDebug_haltPending]
  cases s.abortPending with
  | true => exact ⟨out, rfl⟩
  | false =>
    cases s.haltPending with
    | true => exact ⟨out, rfl⟩
    | false => exact cycle_withDebug s delay mode out

theorem engineTurn_withDebug :
    ∃ out', engineTurn (s.withDebug delay mode out) =
      mapNext (State.withDebug · delay mode out') (engineTurn s) := by
  unfold engineTurn
  rw [withDebug_run, withDebug_phase]
  cases s.run with
  | halted | faulted | aborted => exact ⟨out, rfl⟩
  | running =>
    by_cases hv : s.cfg.valid
    · simp only [if_pos hv, if_pos ((withDebug_valid s delay mode out).2 hv)]
      cases s.phase with
      | fetch => exact fetchTurn_withDebug s delay mode out
      | waitKey r =>
        exact ⟨out, congrArg Host.Outcome.next (waitTurn_withDebug s delay mode out r)⟩
    · simp only [if_neg hv, if_neg (mt (withDebug_valid s delay mode out).1 hv)]
      exact ⟨out, rfl⟩

theorem deliver_withDebug {m : Move} (hm : ∀ c, m ≠ .configure c) :
    ∃ out', deliver m (s.withDebug delay mode out) =
      mapNext (State.withDebug · delay mode out') (deliver m s) := by
  cases m with
  | engine => exact engineTurn_withDebug s delay mode out
  | clock ms => exact ⟨out, rfl⟩
  | key c =>
    exact ⟨out, congrArg Host.Outcome.next
      (whileRunning_withDebug s delay mode out { s with keyq := s.keyq ++ [c] })⟩
  | interrupt =>
    exact ⟨out, congrArg Host.Outcome.next
      (whileRunning_withDebug s delay mode out { s with abortPending := true })⟩
  | haltRequest =>
    exact ⟨out, congrArg Host.Outcome.next
      (whileRunning_withDebug s delay mode out { s with haltPending := true })⟩
  | reset kind rom =>
    exact ⟨out, congrArg Host.Outcome.next (resetWith_withDebug s delay mode out kind rom)⟩
  | configure c => exact absurd rfl (hm c)

end

/-- Settles O51: every move's delivery commutes with overwriting the two settings and the debug
port's record, and which move comes next does not depend on them. -/
theorem debugModeAndDelayReachNothing : Obligations.DebugModeAndDelayReachNothing := by
  intro s t delay mode hconf hstep
  obtain ⟨out, hout⟩ := deliver_withDebug s.afterMove delay mode s.debugOut hconf
  refine ⟨out, ?_⟩
  calc step (s.withDebug delay mode s.debugOut)
      = mapNext (State.withDebug · delay mode out) (step s) := hout
    _ = .next (t.withDebug delay mode out) := by rw [hstep, mapNext]

end Sys2Proof.Machine
end
